-- ==== Sys2Proof/Word.lean ====
section
/-! DEFINITION. The values the hardware moves: nibbles, port bytes and chunks (spec/00_scope.md R15, R18). -/

namespace Sys2Proof

/-- A nibble, "a 4-bit value, range 0–15" (R15, R18). -/
abbrev Nibble := BitVec 4

/-- A byte at the chunk port or the digest port (R88). -/
abbrev Byte := BitVec 8

/-- A chunk: exactly 32 bytes, by type (R56, D9). -/
abbrev Chunk := Vector Byte 32

end Sys2Proof
end

