-- ==== Sys2Proof/Syntax.lean ====
section
/-! DEFINITION. The instructions: one constructor per row of spec/opcode_table.json, and the places an
encoded word can stand in (spec/30_encoding.md). -/

namespace Sys2Proof

/-- The phases of a round (R19, R140). -/
inductive Phase where
  | mix
  | s1
  | s2
  deriving DecidableEq, Repr

/-- The sublayer of a gate step: `s1` is `firstSublayer = true` (R110). -/
inductive Sublayer where
  | s1
  | s2
  deriving DecidableEq, Repr

/-- The four gates of R82. -/
inductive Gate where
  | tofR
  | freR
  | tofM
  | freM
  deriving DecidableEq, Repr

/-- Where a word stands, which decides its format (R80): at the command port (format `CMD`), or in the
key window at round `layer` and index `g`, read in one of the three phases (format `K`, R81, R84). -/
inductive Slot where
  | command
  | key (layer : Nat) (phase : Phase) (g : Nat)
  deriving DecidableEq, Repr

/-- The operations of spec/opcode_table.json. In format `K` the operands `layer` and `g` are implied by
where the key nibble stands (R84); `gt2` in an S1 row and `gt1` in an S2 row are the two bits of the
nibble the row does not constrain (R90). -/
inductive Instr where
  /-- `MIX x[g], k` (R141). -/
  | mix (layer g : Nat) (k : Nibble)
  /-- `S1.TOF.R` (R114). -/
  | s1TofR (layer g : Nat) (gt2 : BitVec 2)
  /-- `S1.FRE.R` (R116). -/
  | s1FreR (layer g : Nat) (gt2 : BitVec 2)
  /-- `S1.TOF.M` (R115). -/
  | s1TofM (layer g : Nat) (gt2 : BitVec 2)
  /-- `S1.FRE.M` (R117). -/
  | s1FreM (layer g : Nat) (gt2 : BitVec 2)
  /-- `S2.TOF.R` (R114). -/
  | s2TofR (layer g : Nat) (gt1 : BitVec 2)
  /-- `S2.FRE.R` (R116). -/
  | s2FreR (layer g : Nat) (gt1 : BitVec 2)
  /-- `S2.TOF.M` (R115). -/
  | s2TofM (layer g : Nat) (gt1 : BitVec 2)
  /-- `S2.FRE.M` (R117). -/
  | s2FreM (layer g : Nat) (gt1 : BitVec 2)
  /-- `INIT.STD` (R221). -/
  | initStd
  /-- `INIT.RND` (R223). -/
  | initRnd
  /-- `PROC.PUSH chunk` (R225). -/
  | procPush (chunk : Chunk)
  /-- `PROC.FIN chunk` (R226). -/
  | procFin (chunk : Chunk)
  /-- `RD.DIG` (R228). -/
  | rdDig
  deriving DecidableEq, Repr

/-- Whether an operation is one of the nine of format `K` (R90); the other five are commands. -/
def Instr.isKeyOp : Instr → Bool
  | .mix _ _ _ => true
  | .s1TofR _ _ _ => true
  | .s1FreR _ _ _ => true
  | .s1TofM _ _ _ => true
  | .s1FreM _ _ _ => true
  | .s2TofR _ _ _ => true
  | .s2FreR _ _ _ => true
  | .s2TofM _ _ _ => true
  | .s2FreM _ _ _ => true
  | .initStd => false
  | .initRnd => false
  | .procPush _ => false
  | .procFin _ => false
  | .rdDig => false

/-- Why the decoder rejects a word. -/
inductive Reject where
  /-- no byte at all -/
  | empty
  /-- a first byte with a bit above the 3-bit code set -/
  | notACode (b : Byte)
  /-- codes 5, 6 and 7 "name no command" (R89) -/
  | noCommand (code : BitVec 3)
  /-- an argument of another length than the command has: 32 bytes, or none (R56, R89) -/
  | badLength (bytes : Nat)
  /-- in format `K`: not exactly one byte whose upper half is zero ("a nibble by type", R86) -/
  | notANibble
  deriving DecidableEq, Repr

end Sys2Proof
end

