-- ==== Sys2Proof/WellFormed.lean ====
section
/-! DEFINITION. The range check of the implied operands of a key-nibble operation:
`layer = 0..DEPTH-1` and `g = 0..N-1` (spec/40_gates.md R110, spec/41_layer_and_block.md R141). -/

namespace Sys2Proof

/-- The position of a key nibble lies in a window of `depth` layers of `n` nibbles. -/
def positionOk (depth n layer g : Nat) : Bool := decide (layer < depth) && decide (g < n)

/-- An instruction of an instance with `DEPTH = depth` and `N = n`. A command is well formed by its type
(its chunk has 32 bytes, R56). -/
def Instr.wf (depth n : Nat) : Instr → Bool
  | .mix layer g _ => positionOk depth n layer g
  | .s1TofR layer g _ => positionOk depth n layer g
  | .s1FreR layer g _ => positionOk depth n layer g
  | .s1TofM layer g _ => positionOk depth n layer g
  | .s1FreM layer g _ => positionOk depth n layer g
  | .s2TofR layer g _ => positionOk depth n layer g
  | .s2FreR layer g _ => positionOk depth n layer g
  | .s2TofM layer g _ => positionOk depth n layer g
  | .s2FreM layer g _ => positionOk depth n layer g
  | .initStd => true
  | .initRnd => true
  | .procPush _ => true
  | .procFin _ => true
  | .rdDig => true

end Sys2Proof
end

