-- ==== Sys2Proof/Decode.lean ====
section
/-! DEFINITION. Decoding of the two word formats, total on any bytes, and the encoder written from the same
tables (spec/30_encoding.md R81, R82, R89). -/

namespace Sys2Proof

/-- R82: "`gateName = gateType & 1` (0 = Toffoli, 1 = Fredkin); `symmetry = gateType >> 1`
(0 = regular, 1 = mirrored)". -/
def gateOfType (gt : BitVec 2) : Gate :=
  match gt.getLsbD 0, gt.getLsbD 1 with
  | false, false => .tofR
  | true, false => .freR
  | false, true => .tofM
  | true, true => .freM

/-- The gate-type value of each gate (R82, the table). -/
def typeOfGate : Gate → BitVec 2
  | .tofR => 0
  | .freR => 1
  | .tofM => 2
  | .freM => 3

/-- The gate-type field of a key nibble: `gt1 = k[1:0]` in S1, `gt2 = k[3:2]` in S2 (R81). -/
def gateField (sub : Sublayer) (k : Nibble) : BitVec 2 :=
  match sub with
  | .s1 => k.extractLsb' 0 2
  | .s2 => k.extractLsb' 2 2

/-- Format `K`: every nibble is a legal word in each of the three phases (R83, R86). -/
def decodeKey (layer : Nat) (phase : Phase) (g : Nat) (k : Nibble) : Instr :=
  match phase with
  | .mix => .mix layer g k
  | .s1 =>
    match gateOfType (gateField .s1 k) with
    | .tofR => .s1TofR layer g (gateField .s2 k)
    | .freR => .s1FreR layer g (gateField .s2 k)
    | .tofM => .s1TofM layer g (gateField .s2 k)
    | .freM => .s1FreM layer g (gateField .s2 k)
  | .s2 =>
    match gateOfType (gateField .s2 k) with
    | .tofR => .s2TofR layer g (gateField .s1 k)
    | .freR => .s2FreR layer g (gateField .s1 k)
    | .tofM => .s2TofM layer g (gateField .s1 k)
    | .freM => .s2FreM layer g (gateField .s1 k)

/-- A command without an argument (R89). -/
def decodeBare (i : Instr) (arg : List Byte) : Except Reject Instr :=
  match arg with
  | [] => .ok i
  | _ :: _ => .error (.badLength arg.length)

/-- A command whose argument is a chunk of exactly 32 bytes (R89, R56). -/
def decodeChunk (make : Chunk → Instr) (arg : List Byte) : Except Reject Instr :=
  if h : arg.length = 32 then .ok (make ⟨⟨arg⟩, h⟩) else .error (.badLength arg.length)

/-- Format `CMD` (R89): the code in bits 2..0 of the first byte, the chunk, if any, after it (log entry 1). -/
def decodeCommand (bytes : List Byte) : Except Reject Instr :=
  match bytes with
  | [] => .error .empty
  | b :: arg =>
    match b.toNat with
    | 0 => decodeBare .initStd arg
    | 1 => decodeBare .initRnd arg
    | 2 => decodeChunk .procPush arg
    | 3 => decodeChunk .procFin arg
    | 4 => decodeBare .rdDig arg
    | c => if c < 8 then .error (.noCommand (BitVec.ofNat 3 c)) else .error (.notACode b)

/-- The decoder: the slot a word stands in decides its format (R80). -/
def decode (slot : Slot) (bytes : List Byte) : Except Reject Instr :=
  match slot with
  | .command => decodeCommand bytes
  | .key layer phase g =>
    match bytes with
    | [b] => if b.toNat < 16 then .ok (decodeKey layer phase g (b.setWidth 4)) else .error .notANibble
    | _ => .error .notANibble

/-- A key nibble as a byte with a zero upper half. -/
def keyByte (k : Nibble) : Byte := k.setWidth 8

/-- The key nibble of a gate of S1: `gt1` low, the unconstrained bits `hh` high (R81). -/
def keyOfS1 (gate : Gate) (gt2 : BitVec 2) : Nibble := gt2 ++ typeOfGate gate

/-- The key nibble of a gate of S2: `gt2` high, the unconstrained bits `ll` low (R81). -/
def keyOfS2 (gate : Gate) (gt1 : BitVec 2) : Nibble := typeOfGate gate ++ gt1

/-- The encoder: where the word stands, and its bytes (R81, R89). -/
def encode : Instr → Slot × List Byte
  | .mix layer g k => (.key layer .mix g, [keyByte k])
  | .s1TofR layer g gt2 => (.key layer .s1 g, [keyByte (keyOfS1 .tofR gt2)])
  | .s1FreR layer g gt2 => (.key layer .s1 g, [keyByte (keyOfS1 .freR gt2)])
  | .s1TofM layer g gt2 => (.key layer .s1 g, [keyByte (keyOfS1 .tofM gt2)])
  | .s1FreM layer g gt2 => (.key layer .s1 g, [keyByte (keyOfS1 .freM gt2)])
  | .s2TofR layer g gt1 => (.key layer .s2 g, [keyByte (keyOfS2 .tofR gt1)])
  | .s2FreR layer g gt1 => (.key layer .s2 g, [keyByte (keyOfS2 .freR gt1)])
  | .s2TofM layer g gt1 => (.key layer .s2 g, [keyByte (keyOfS2 .tofM gt1)])
  | .s2FreM layer g gt1 => (.key layer .s2 g, [keyByte (keyOfS2 .freM gt1)])
  | .initStd => (.command, [0#8])
  | .initRnd => (.command, [1#8])
  | .procPush chunk => (.command, 2#8 :: chunk.toList)
  | .procFin chunk => (.command, 3#8 :: chunk.toList)
  | .rdDig => (.command, [4#8])

/-- The first `count` bytes of `w`, byte 0 first. -/
def bytesOf (count w : Nat) : List Byte := (List.range count).map fun i => BitVec.ofNat 8 (w / 256 ^ i)

/-- Where a bare word of the opcode table is taken to stand. The rows of formats `K` and `CMD` overlap, and
neither the word nor its width in whole bytes says which row is meant (R90), so this is the model's choice
(log entry 13): a width of 4 bits is a key nibble, a width of 3 a command; otherwise a value that is a
command code is a command and any other nibble a key nibble. A key nibble is read in the phase whose field
it fills: `MIX` for 0, S1 for 1 to 3, S2 above. -/
def tableSlot (nbits w : Nat) : Slot :=
  if nbits = 4 ∨ (3 < nbits ∧ 4 < w ∧ w < 16) then
    .key 0 (if w = 0 then .mix else if w < 4 then .s1 else .s2) 0
  else .command

/-- The bytes of a bare word of the table: one for a key nibble or a bare command, 33 for a command with a
chunk (the bits the table does not give are 0), and never fewer than `nbits` has. -/
def tableWord (nbits w : Nat) : Slot × List Byte :=
  match tableSlot nbits w with
  | .key layer phase g => (.key layer phase g, bytesOf (max 1 ((nbits + 7) / 8)) w)
  | .command =>
    let short := max 1 ((nbits + 7) / 8)
    (.command, bytesOf (if w % 256 = 2 ∨ w % 256 = 3 then max 33 short else short) w)

/-- The instruction the decoder reads from a word numbered as spec/opcode_table.json numbers it. -/
def decodeTableWord (nbits w : Nat) : Option Instr :=
  (decode (tableWord nbits w).1 (tableWord nbits w).2).toOption

end Sys2Proof
end

