-- ==== Sys2Proof/Config.lean ====
section
/-! DEFINITION. What is fixed for an instance (spec/00_scope.md section 4) and what the spec leaves open:
the ROM words, the generator's draws, and the contents of the working state between commands. -/

namespace Sys2Proof

/-- The key-schedule mode (R10), carried by the name of the `INIT` command (D3). -/
inductive Mode where
  | standard
  | random
  deriving DecidableEq, Repr

/-- The parameters of one instance: `SIZE` (R8), `DEPTH` (R9) and the constant table `ROM` (R11).
"both fixed at construction time and independent of input length" (R29). -/
structure Params where
  size  : Nat
  depth : Nat
  rom   : Vector (BitVec 64) 64
  deriving DecidableEq, Repr

/-- `N = SIZE/4`: nibbles of the state, gates of a sublayer (R8). -/
def Params.n (p : Params) : Nat := p.size / 4

/-- `B = SIZE/8`: bytes of the digest (R8). -/
def Params.b (p : Params) : Nat := p.size / 8

/-- Default `SIZE` (R8, R13). -/
def Config.defaultSize : Nat := 256

/-- Default `DEPTH` (R9, R13). -/
def Config.defaultDepth : Nat := 128

/-- `CHUNK_BYTES` (R13). -/
def Config.chunkBytes : Nat := 32

/-- `CHUNK_NIBBLES` (R13). -/
def Config.chunkNibbles : Nat := 64

/-- `ROM_ENTRIES` (R13). -/
def Config.romEntries : Nat := 64

/-- `SEED_DIGITS` (R13). -/
def Config.seedDigits : Nat := 8

/-- `PAD_BYTE` of the host, 'A' (R13, R256). -/
def Config.padByte : Byte := 0x41#8

/-- `PRNG_SEED`, kept as a named constant (R12); the draws after seeding with it are `Config.prng`. -/
def Config.prngSeed : Nat := 777

/-- The 64 ROM words of this hardware: `OPEN` (R11, D4), log entry 6. -/
opaque Config.rom : Vector (BitVec 64) 64

/-- `PRNG(t)`, the `t`-th draw after seeding with 777: `OPEN` (R12, D5), log entry 7. -/
opaque Config.prng : Nat → Nibble

/-- Free value: nibble `g` of the `t`-th array of nibbles the spec leaves unspecified: the working state after a
command (R24, I7, log entry 5), and `KL`, `LDN` and `x` after a loss of power (R36, R296, log entry 21). -/
opaque Config.freeNibble : Nat → Nat → Nibble

end Sys2Proof
end

