-- ==== Sys2Proof/Machine/State.lean ====
section
/-! DEFINITION. The state of the machine (spec/10_state.md), the exceptions it reports to the host
(spec/60_exceptions.md), and the reasons a step can stop. -/

namespace Sys2Proof.Machine

/-- The parameter a `ConfigError` names (R281). -/
inductive BadParam where
  | depth
  | size
  deriving DecidableEq, Repr

/-- The three exceptions, with what each records (R281 to R283). They are taken as a next state (log entry
3), never as an outcome `fault`. -/
inductive Exception where
  | configError (param : BadParam)
  | unsupportedSize (size : Nat)
  | notInitialised
  deriving DecidableEq, Repr

/-- What the host was last handed (R230, R288): nothing yet, the output of a command that succeeded (empty,
or the `B` bytes of a digest), or the exception of one that did not. -/
inductive Response where
  | none
  | ok (output : List Byte)
  | fault (e : Exception)
  deriving DecidableEq, Repr

/-- Where the result of a block run goes (R148, R227). -/
inductive Dest where
  | push
  | fin
  deriving DecidableEq, Repr

/-- The sequencer during a block run: its position `(layer, phase, g)` (R25) and the destination of the
result (R148). -/
structure BlockRun where
  layer : Nat
  phase : Phase
  g     : Nat
  dest  : Dest
  deriving DecidableEq, Repr

/-- What the environment does next: it issues a command, given by its bytes at the port (R262, log entry 1), or
takes the power away (R296, log entry 21). -/
inductive Input where
  | command (bytes : List Byte)
  | powerLoss
  deriving DecidableEq, Repr

/-- The state. `cfg` is the instance's constants (R29, R33 (4)); `valid`, `kl`, `ldn` are the triple of R220;
`x` is the working state, whose bits are the wires (R21, R22); `seq` is the sequencer, `none` when idle
(R25); `response` is what the host was handed and `inputs` what the environment does next (R33 (5), R296, log
entries 1, 15 and 21); `draws` counts the free values taken (the model's own, log entry 5). -/
structure State where
  cfg      : Params
  valid    : Bool
  kl       : List (List Nibble)
  ldn      : List Nibble
  x        : List Nibble
  seq      : Option BlockRun
  response : Response
  inputs   : List Input
  draws    : Nat
  deriving DecidableEq, Repr

/-- Why a step stops with a fault. -/
inductive Fault where
  /-- Raised by `step`: the sequencer stands outside the key window, so there is no key nibble to read. No
  state that meets `State.Inv` does this. Safe. -/
  | noKeyNibble
  deriving DecidableEq, Repr

/-- Why a step is refused. -/
inductive Refusal where
  /-- Raised by an arm of `exec` whose instruction has no meaning yet (none has been left so). Safe. -/
  | notModelled (mnemonic : String)
  /-- Raised by `step`: the host's request names no command (R89, D12: "treat as `refuse`"). Safe. -/
  | undecodable (why : Reject)
  /-- Raised by the five commands: issued while a block run is in progress, which the environment never
  does (R262, R322, I10: `refuse`). Safe. -/
  | commandWhileRunning
  deriving DecidableEq, Repr

/-- Power-on (R36, R311): `VALID = 0`, sequencer idle; `KL`, `LDN` and `x` are unspecified by the spec and
zero here (log entry 4). The instance is `GateNetwork(SIZE=256, DEPTH=128)` (R1) with the open ROM. -/
def State.reset : State where
  cfg := ⟨Config.defaultSize, Config.defaultDepth, Config.rom⟩
  valid := false
  kl := List.replicate 128 (List.replicate 64 0#4)
  ldn := List.replicate 64 0#4
  x := List.replicate 64 0#4
  seq := none
  response := .none
  inputs := []
  draws := 0

end Sys2Proof.Machine
end

