-- ==== Sys2Proof/Machine/Operands.lean ====
section
/-! DEFINITION. The operand forms: wires of the working state (spec/20_memory.md), wire addressing
(spec/40_gates.md R111), nibbles of a port byte (spec/30_encoding.md R88) and key nibbles. -/

namespace Sys2Proof.Machine

/-- R53 on one nibble: clear bit `p`, then set it to `b`. -/
def putBit (v : Nibble) (p : Nat) (b : Bool) : Nibble :=
  (v &&& ~~~(1#4 <<< p)) ||| ((if b then 1#4 else 0#4) <<< p)

/-- Wire read `W(w)` (R52): bit `w mod 4` of `x[w / 4]`. -/
def readWire (x : List Nibble) (w : Nat) : Bool := (x.getD (w / 4) 0#4).getLsbD (w % 4)

/-- Wire write `W(w) <- b` (R53). -/
def writeWire (x : List Nibble) (w : Nat) (b : Bool) : List Nibble :=
  x.set (w / 4) (putBit (x.getD (w / 4) 0#4) (w % 4) b)

/-- The offset of a sublayer: `firstSublayer ? 0 : 2` (R111). -/
def subOffset : Sublayer → Nat
  | .s1 => 0
  | .s2 => 2

/-- `wire_k` of gate `g` (R111): `(g*4 + (layer mod 2) + k + (firstSublayer ? 0 : 2)) mod size`. -/
def wire (size layer : Nat) (sub : Sublayer) (g k : Nat) : Nat :=
  (g * 4 + layer % 2 + k + subOffset sub) % size

/-- `b[7:4]`, the nibble with the even index (R88). -/
def highNibble (b : Byte) : Nibble := b.extractLsb' 4 4

/-- `b[3:0]`, the nibble with the odd index (R88). -/
def lowNibble (b : Byte) : Nibble := b.extractLsb' 0 4

/-- `(hi << 4) | lo` (R202). -/
def joinNibbles (hi lo : Nibble) : Byte := (hi.setWidth 8 <<< 4) ||| lo.setWidth 8

/-- `KL[l][g]`, absent outside the window (R26). -/
def keyNibble? (kl : List (List Nibble)) (layer g : Nat) : Option Nibble :=
  (kl[layer]?).bind fun K => K[g]?

end Sys2Proof.Machine
end

