-- ==== Sys2Proof/Machine/Flags.lean ====
section
/-! DEFINITION. The hardware has no flags (spec/10_state.md R31). The one condition it computes is the one a
gate tests on its three wires and uses at once; nothing stores it (spec/40_gates.md R114 to R117). -/

namespace Sys2Proof.Machine

/-- Whether a gate fires on `v1 v2 v3`: the condition column of the four source rows (R114 to R117). -/
def gateFires (gate : Gate) (v1 v2 v3 : Bool) : Bool :=
  match gate with
  | .tofR => v1 && v2
  | .tofM => v2 && v3
  | .freR => v1 && (v2 != v3)
  | .freM => v3 && (v1 != v2)

end Sys2Proof.Machine
end

