-- ==== Sys2Proof/Machine/Ops.lean ====
section
/-! DEFINITION. The shared operations: gates, rounds and the block run (spec/40_gates.md,
spec/41_layer_and_block.md), the schedules and the rotation (spec/42_key_schedule.md), the codec
(spec/43_block_codec.md), the outcome of a command and the taking of an exception (spec/60_exceptions.md),
and the sequencer with its fetch (spec/10_state.md R25). -/

namespace Sys2Proof.Machine

/-! ### Gates and rounds -/

/-- Toffoli regular on wires `w0 w1 w2` (R114). -/
def tofR (w0 w1 w2 : Nat) (x : List Nibble) : List Nibble :=
  let v1 := readWire x w0
  let v2 := readWire x w1
  let v3 := readWire x w2
  if gateFires .tofR v1 v2 v3 then writeWire x w2 (!v3) else x

/-- Toffoli mirrored (R115). -/
def tofM (w0 w1 w2 : Nat) (x : List Nibble) : List Nibble :=
  let v1 := readWire x w0
  let v2 := readWire x w1
  let v3 := readWire x w2
  if gateFires .tofM v1 v2 v3 then writeWire x w0 (!v1) else x

/-- Fredkin regular (R116); all three reads come before both writes (R54). -/
def freR (w0 w1 w2 : Nat) (x : List Nibble) : List Nibble :=
  let v1 := readWire x w0
  let v2 := readWire x w1
  let v3 := readWire x w2
  if gateFires .freR v1 v2 v3 then writeWire (writeWire x w1 v3) w2 v2 else x

/-- Fredkin mirrored (R117); all three reads come before both writes (R54). -/
def freM (w0 w1 w2 : Nat) (x : List Nibble) : List Nibble :=
  let v1 := readWire x w0
  let v2 := readWire x w1
  let v3 := readWire x w2
  if gateFires .freM v1 v2 v3 then writeWire (writeWire x w0 v2) w1 v1 else x

/-- `GATE(gt, w0, w1, w2)` of R142. -/
def applyGate (gate : Gate) (w0 w1 w2 : Nat) (x : List Nibble) : List Nibble :=
  match gate with
  | .tofR => tofR w0 w1 w2 x
  | .freR => freR w0 w1 w2 x
  | .tofM => tofM w0 w1 w2 x
  | .freM => freM w0 w1 w2 x

/-- A gate step (R110): the gate on the three wires of R111. -/
def gateStep (size layer : Nat) (sub : Sublayer) (gate : Gate) (g : Nat) (x : List Nibble) : List Nibble :=
  applyGate gate (wire size layer sub g 0) (wire size layer sub g 1) (wire size layer sub g 2) x

/-- One `MIX` operation (R141): `x[g] <- x[g] ^ k`. -/
def mixNibble (g : Nat) (k : Nibble) (x : List Nibble) : List Nibble := x.set g (x.getD g 0#4 ^^^ k)

/-- The gate step a key nibble selects in a sublayer (R142, R143). -/
def keyGate (size layer : Nat) (sub : Sublayer) (K : List Nibble) (x : List Nibble) (g : Nat) : List Nibble :=
  gateStep size layer sub (gateOfType (gateField sub (K.getD g 0#4))) g x

/-- The `MIX` phase (R141). -/
def mixPhase (size : Nat) (K x : List Nibble) : List Nibble :=
  (List.range (size / 4)).foldl (fun x g => mixNibble g (K.getD g 0#4) x) x

/-- A sublayer: its gates in increasing `g`, each written back at once (R142, R143, R61). -/
def sublayer (size layer : Nat) (sub : Sublayer) (K x : List Nibble) : List Nibble :=
  (List.range (size / 4)).foldl (keyGate size layer sub K) x

/-- A round (R140, R144). -/
def applyLayer (size layer : Nat) (K x : List Nibble) : List Nibble :=
  sublayer size layer .s2 K (sublayer size layer .s1 K (mixPhase size K x))

/-- Rounds `0 .. DEPTH-1` (R147, R149), defined for every legal `SIZE`. -/
def permute (size depth : Nat) (kl : List (List Nibble)) (x : List Nibble) : List Nibble :=
  (List.range depth).foldl (fun x layer => applyLayer size layer (kl.getD layer []) x) x

/-! ### Codec -/

/-- `unpack` (R200): for each byte its high nibble, then its low nibble. -/
def unpack (c : Chunk) : List Nibble := c.toList.flatMap fun b => [highNibble b, lowNibble b]

/-- `pack` (R202), with zero for a nibble that is out of range (R203). -/
def pack (size : Nat) (n : List Nibble) : List Byte :=
  (List.range (size / 8)).map fun i => joinNibbles (n.getD (2 * i) 0#4) (n.getD (2 * i + 1) 0#4)

/-- A block run (R146 to R149): its result is a value. -/
def processBlock (size depth : Nat) (kl : List (List Nibble)) (c : Chunk) : List Nibble :=
  permute size depth kl (unpack c)

/-! ### Key schedule and window -/

/-- Seed nibble `d_p` of a ROM word (R172): `(c >> (36 - 4p)) & 0xF`. -/
def seedNibble (c : BitVec 64) (p : Nat) : Nibble := (c >>> (36 - 4 * p)).setWidth 4

/-- Standard mode (R171, R173, R174, R175). -/
def stdLayer (rom : Vector (BitVec 64) 64) (n i : Nat) : List Nibble :=
  if h : i < 64 then
    (List.range n).map fun p => if p < Config.seedDigits then seedNibble rom[i] p else BitVec.ofNat 4 ((i + 1) % 16)
  else
    (List.range n).map fun j => BitVec.ofNat 4 ((i + j) % 16)

/-- Random mode (R176): layer-major, position-minor. -/
def rndLayer (prng : Nat → Nibble) (n i : Nat) : List Nibble := (List.range n).map fun g => prng (i * n + g)

/-- Layer `L_i` of the schedule of a mode (R170); the random mode reads the open generator. -/
def scheduleLayer (mode : Mode) (cfg : Params) (i : Nat) : List Nibble :=
  match mode with
  | .standard => stdLayer cfg.rom cfg.n i
  | .random => rndLayer Config.prng cfg.n i

/-- The initial window (R177): `KL[i]` is schedule layer `i`. -/
def initialWindow (mode : Mode) (cfg : Params) : List (List Nibble) :=
  (List.range cfg.depth).map (scheduleLayer mode cfg)

/-- Rotation (R178): push to the front and truncate to `DEPTH` layers. -/
def rotate (depth : Nat) (h : List Nibble) (kl : List (List Nibble)) : List (List Nibble) := (h :: kl).take depth

/-! ### Outcomes of commands -/

/-- The codes of R284; 0 is "no exception". -/
def Exception.code : Exception → Nat
  | .configError _ => 1
  | .unsupportedSize _ => 2
  | .notInitialised => 3

/-- TAKING AN EXCEPTION (R288): the host is handed `fault(reason, info)` in place of a result and the hardware
state is exactly what it was. There is no handler, no saved position and no return operation: the host may
issue any command next (R289, log entry 3). -/
def raise (e : Exception) (s : State) : Host.Outcome State Fault Refusal := .next { s with response := .fault e }

/-- A command that succeeds hands its output to the host (R230). -/
def respond (output : List Byte) (s : State) : State := { s with response := .ok output }

/-- `n` free nibbles, the `t`-th array of them. -/
def freeNibbles (n t : Nat) : List Nibble := (List.range n).map (Config.freeNibble t)

/-- The working state is unspecified from here on (R24, R36): its nibbles are free values (log entry 5). -/
def releaseX (s : State) : State := { s with x := freeNibbles s.cfg.n s.draws, draws := s.draws + 1 }

/-- LOSS OF POWER (R296): the instance returns to the power-on state of R36, whatever it was doing: `VALID = 0`,
the sequencer idle, nothing handed to the host, and `KL`, `LDN` and `x` unspecified, so free values. The
parameters are those of the instance (R29); the environment goes on with its next input (log entry 21). -/
def losePower (s : State) : State :=
  { s with
    valid := false
    kl := (List.range s.cfg.depth).map fun l => freeNibbles s.cfg.n (s.draws + 2 + l)
    ldn := freeNibbles s.cfg.n (s.draws + 1)
    x := freeNibbles s.cfg.n s.draws
    seq := none
    response := .none
    inputs := s.inputs.tail
    draws := s.draws + 2 + s.cfg.depth }

/-- Commands are issued one at a time: none starts while a block run is in progress (R262, R322, I10). -/
def whenIdle (s : State) (outcome : Host.Outcome State Fault Refusal) : Host.Outcome State Fault Refusal :=
  match s.seq with
  | none => outcome
  | some _ => .refused .commandWhileRunning

/-- The check of the commands that need an initialised instance (R283). -/
def whenValid (s : State) (outcome : Host.Outcome State Fault Refusal) : Host.Outcome State Fault Refusal :=
  if s.valid then outcome else raise .notInitialised s

/-- The configuration checks of an `INIT`, in the order of R287. -/
def configCheck (cfg : Params) : Option Exception :=
  if cfg.depth < 1 then some (.configError .depth)
  else if cfg.size = 0 ∨ cfg.size % 8 ≠ 0 then some (.configError .size)
  else if cfg.size ≠ 256 then some (.unsupportedSize cfg.size)
  else none

/-- What both `INIT` commands do (R221 to R224). -/
def initialise (mode : Mode) (s : State) : Host.Outcome State Fault Refusal :=
  match configCheck s.cfg with
  | some e => raise e s
  | none =>
    .next (respond [] (releaseX
      { s with valid := true, kl := initialWindow mode s.cfg, ldn := List.replicate s.cfg.n 0#4 }))

/-- The end of a block run with result `h`: the window is rotated (R225) or the result register written
(R226), the working state is released and the sequencer is idle again. -/
def finishBlock (dest : Dest) (h : List Nibble) (s : State) : State :=
  respond [] (releaseX
    (match dest with
     | .push => { s with kl := rotate s.cfg.depth h s.kl, seq := none }
     | .fin => { s with ldn := h, seq := none }))

/-- The body of the two `PROC` commands (R225, R226, R227): the run uses the window as it is now. -/
def processChunk (dest : Dest) (chunk : Chunk) (s : State) : Host.Outcome State Fault Refusal :=
  .next (finishBlock dest (processBlock s.cfg.size s.cfg.depth s.kl chunk) s)

/-! ### The sequencer: the same block run, one key nibble at a time (R25, R150, D10) -/

/-- The state in which a block run of `chunk` begins: `x <- unpack(chunk)` and position `(0, MIX, 0)` (R146,
R150). -/
def beginBlock (dest : Dest) (chunk : Chunk) (s : State) : State :=
  { s with x := unpack chunk, seq := some ⟨0, .mix, 0, dest⟩ }

/-- The position after `r`, `none` past `(DEPTH-1, S2, N-1)` (R25, R150). -/
def nextPosition (n depth : Nat) (r : BlockRun) : Option BlockRun :=
  if r.g + 1 < n then some { r with g := r.g + 1 }
  else
    match r.phase with
    | .mix => some { r with phase := .s1, g := 0 }
    | .s1 => some { r with phase := .s2, g := 0 }
    | .s2 => if r.layer + 1 < depth then some { r with layer := r.layer + 1, phase := .mix, g := 0 } else none

/-- Advance the sequencer; past the last position the block run ends with result `x` (R148). -/
def advance (s : State) : State :=
  match s.seq with
  | none => s
  | some r =>
    match nextPosition s.cfg.n s.cfg.depth r with
    | some r' => { s with seq := some r' }
    | none => finishBlock r.dest s.x s

/-- What a step finds to execute. -/
inductive Fetched where
  /-- the power goes (R296) -/
  | powerLoss
  /-- idle and no request pending: the hardware waits for the next command (R313) -/
  | waiting
  /-- a block run whose position has no key nibble -/
  | missing
  /-- a word, and where it stands -/
  | word (slot : Slot) (bytes : List Byte)
  deriving DecidableEq, Repr

/-- During a block run the next word is the key nibble at the sequencer's position (R25, R61). -/
def fetchKey (kl : List (List Nibble)) (r : BlockRun) : Fetched :=
  match keyNibble? kl r.layer r.g with
  | some k => .word (.key r.layer r.phase r.g) [keyByte k]
  | none => .missing

/-- A loss of power comes before anything else, also inside a block run; otherwise an active sequencer takes its
next key nibble, and an idle machine the host's next command (R25, R63, R296). -/
def fetch (s : State) : Fetched :=
  match s.inputs, s.seq with
  | .powerLoss :: _, _ => .powerLoss
  | .command _ :: _, some r => fetchKey s.kl r
  | .command bytes :: _, none => .word .command bytes
  | [], some r => fetchKey s.kl r
  | [], none => .waiting

/-- Taking a word: a command leaves the port, a key nibble stays in the window (R66). -/
def takeWord (slot : Slot) (s : State) : State :=
  match slot with
  | .command => { s with inputs := s.inputs.tail }
  | .key _ _ _ => s

/-- After the word's operation: the sequencer advances past a key nibble. -/
def retire (slot : Slot) (s : State) : State :=
  match slot with
  | .command => s
  | .key _ _ _ => advance s

/-- `KL[0][0] <- k`, in a window that may be empty. -/
def setFirstKey (k : Nibble) (kl : List (List Nibble)) : List (List Nibble) :=
  match kl with
  | (_ :: ks) :: ls => (k :: ks) :: ls
  | [] :: ls => [k] :: ls
  | [] => [[k]]

/-- A bare word of the opcode table put where `fetch` finds it (log entry 13): a command at the head of the
port, a key nibble at `KL[0][0]` with the sequencer there and no loss of power before it. -/
def placeWord (nbits w : Nat) (s : State) : State :=
  match tableWord nbits w with
  | (.command, bytes) => { s with seq := none, inputs := .command bytes :: s.inputs }
  | (.key layer phase g, bytes) =>
    { s with
      seq := some ⟨layer, phase, g, .push⟩
      kl := setFirstKey ((bytes.headD 0#8).setWidth 4) s.kl
      inputs := s.inputs.dropWhile (· == .powerLoss) }

end Sys2Proof.Machine
end

