-- ==== Sys2Proof/Machine/Commands.lean ====
section
/-! DEFINITION. The meanings of the five commands (spec/44_commands.md). -/

namespace Sys2Proof.Machine

/-- `INIT.STD` (R221, R222). -/
def execInitStd (s : State) : Host.Outcome State Fault Refusal := whenIdle s (initialise .standard s)

/-- `INIT.RND` (R223, R222). -/
def execInitRnd (s : State) : Host.Outcome State Fault Refusal := whenIdle s (initialise .random s)

/-- `PROC.PUSH chunk` (R225). -/
def execProcPush (chunk : Chunk) (s : State) : Host.Outcome State Fault Refusal :=
  whenIdle s (whenValid s (processChunk .push chunk s))

/-- `PROC.FIN chunk` (R226). -/
def execProcFin (chunk : Chunk) (s : State) : Host.Outcome State Fault Refusal :=
  whenIdle s (whenValid s (processChunk .fin chunk s))

/-- `RD.DIG` (R228): the digest goes to the host, nothing is written. -/
def execRdDig (s : State) : Host.Outcome State Fault Refusal :=
  whenIdle s (whenValid s (.next (respond (pack s.cfg.size s.ldn) s)))

end Sys2Proof.Machine
end

