-- ==== Sys2Proof/Machine/Mix.lean ====
section
/-! DEFINITION. The meaning of `MIX` (spec/41_layer_and_block.md R141). -/

namespace Sys2Proof.Machine

/-- `MIX x[g], k` (R141); the round number plays no part. -/
def execMix (g : Nat) (k : Nibble) (s : State) : Host.Outcome State Fault Refusal :=
  .next { s with x := mixNibble g k s.x }

end Sys2Proof.Machine
end

