-- ==== Sys2Proof/Machine/SublayerOne.lean ====
section
/-! DEFINITION. The meanings of the four gates in slot S1 (spec/40_gates.md R111, R114 to R117). -/

namespace Sys2Proof.Machine

/-- `S1.TOF.R` (R114). -/
def execS1TofR (layer g : Nat) (s : State) : Host.Outcome State Fault Refusal :=
  .next { s with x := gateStep s.cfg.size layer .s1 .tofR g s.x }

/-- `S1.FRE.R` (R116). -/
def execS1FreR (layer g : Nat) (s : State) : Host.Outcome State Fault Refusal :=
  .next { s with x := gateStep s.cfg.size layer .s1 .freR g s.x }

/-- `S1.TOF.M` (R115). -/
def execS1TofM (layer g : Nat) (s : State) : Host.Outcome State Fault Refusal :=
  .next { s with x := gateStep s.cfg.size layer .s1 .tofM g s.x }

/-- `S1.FRE.M` (R117). -/
def execS1FreM (layer g : Nat) (s : State) : Host.Outcome State Fault Refusal :=
  .next { s with x := gateStep s.cfg.size layer .s1 .freM g s.x }

end Sys2Proof.Machine
end

