-- ==== Sys2Proof/Machine/SublayerTwo.lean ====
section
/-! DEFINITION. The meanings of the four gates in slot S2 (spec/40_gates.md R111, R114 to R117). -/

namespace Sys2Proof.Machine

/-- `S2.TOF.R` (R114). -/
def execS2TofR (layer g : Nat) (s : State) : Host.Outcome State Fault Refusal :=
  .next { s with x := gateStep s.cfg.size layer .s2 .tofR g s.x }

/-- `S2.FRE.R` (R116). -/
def execS2FreR (layer g : Nat) (s : State) : Host.Outcome State Fault Refusal :=
  .next { s with x := gateStep s.cfg.size layer .s2 .freR g s.x }

/-- `S2.TOF.M` (R115). -/
def execS2TofM (layer g : Nat) (s : State) : Host.Outcome State Fault Refusal :=
  .next { s with x := gateStep s.cfg.size layer .s2 .tofM g s.x }

/-- `S2.FRE.M` (R117). -/
def execS2FreM (layer g : Nat) (s : State) : Host.Outcome State Fault Refusal :=
  .next { s with x := gateStep s.cfg.size layer .s2 .freM g s.x }

end Sys2Proof.Machine
end

