-- ==== Sys2Proof/Machine/Dispatch.lean ====
section
/-! DEFINITION. One arm per instruction: the meaning of each row of spec/opcode_table.json. -/

namespace Sys2Proof.Machine

def exec (i : Instr) (s : State) : Host.Outcome State Fault Refusal :=
  match i with
  | .mix _ g k => Sys2Proof.Machine.execMix g k s
  | .s1TofR layer g _ => Sys2Proof.Machine.execS1TofR layer g s
  | .s1FreR layer g _ => Sys2Proof.Machine.execS1FreR layer g s
  | .s1TofM layer g _ => Sys2Proof.Machine.execS1TofM layer g s
  | .s1FreM layer g _ => Sys2Proof.Machine.execS1FreM layer g s
  | .s2TofR layer g _ => Sys2Proof.Machine.execS2TofR layer g s
  | .s2FreR layer g _ => Sys2Proof.Machine.execS2FreR layer g s
  | .s2TofM layer g _ => Sys2Proof.Machine.execS2TofM layer g s
  | .s2FreM layer g _ => Sys2Proof.Machine.execS2FreM layer g s
  | .initStd => Sys2Proof.Machine.execInitStd s
  | .initRnd => Sys2Proof.Machine.execInitRnd s
  | .procPush chunk => Sys2Proof.Machine.execProcPush chunk s
  | .procFin chunk => Sys2Proof.Machine.execProcFin chunk s
  | .rdDig => Sys2Proof.Machine.execRdDig s

end Sys2Proof.Machine
end

