-- ==== Sys2Proof/Machine/Step.lean ====
section
/-! DEFINITION. One step: a loss of power is taken (R296), or the next word is fetched, decoded and executed.
Idle, that is one whole command of the host, atomic as the spec has it (R58, R220, R230); inside a block run it is
one key nibble (R25, D10). -/

namespace Sys2Proof.Machine

/-- One step of the machine. With nothing to execute it waits (R313). -/
def step (s : State) : Host.Outcome State Fault Refusal :=
  match fetch s with
  | .waiting => .next s
  | .powerLoss => .next (losePower s)
  | .missing => .fault .noKeyNibble
  | .word slot bytes =>
    match decode slot bytes with
    | .error why => .refused (.undecodable why)
    | .ok i =>
      match exec i (takeWord slot s) with
      | .next t => .next (retire slot t)
      | .fault f => .fault f
      | .refused r => .refused r

/-- `s` with a bare word of the opcode table where `step` fetches its next instruction (log entry 13). -/
def State.withFetchWord (s : State) (nbits w : Nat) : State := placeWord nbits w s

end Sys2Proof.Machine
end

