-- ==== Sys2Proof/Machine/HostProtocol.lean ====
section
/-! DEFINITION. The environment: the host routines of spec/45_host_protocol.md as functions that produce the
commands the hardware is given, and the run of a command list (spec/44_commands.md R230). The hardware does
not depend on this file. -/

namespace Sys2Proof.Machine

/-- The host's memory (R251, R252). -/
structure HostMem where
  buffer  : List Byte
  counter : Nat
  deriving DecidableEq, Repr

/-- After construction: empty buffer, counter 0 (R250). -/
def HostMem.reset : HostMem := ⟨[], 0⟩

/-- The chunk of the first 32 bytes of a list (zero past its end, which no host routine reaches). -/
def chunkOf (l : List Byte) : Chunk := ⟨⟨(List.range 32).map fun i => l.getD i 0#8⟩, by simp⟩

/-- The full-block loop (R255): while 32 bytes are there, one `PROC.PUSH`; `fuel` bounds the passes. -/
def pushFull : Nat → List Byte → List Instr × List Byte
  | 0, buffer => ([], buffer)
  | fuel + 1, buffer =>
    if 32 ≤ buffer.length then
      (.procPush (chunkOf (buffer.take 32)) :: (pushFull fuel (buffer.drop 32)).1,
        (pushFull fuel (buffer.drop 32)).2)
    else ([], buffer)

/-- The finalize step's chunk (R256): the buffer padded with `0x41` to 32 bytes. -/
def paddedChunk (buffer : List Byte) : Chunk :=
  chunkOf (buffer ++ List.replicate (Config.chunkBytes - buffer.length) Config.padByte)

/-- `absorb(bytes)` (R253 to R256): the commands it issues, and the host's memory after it. -/
def absorb (bytes : List Byte) (h : HostMem) : List Instr × HostMem :=
  if bytes.isEmpty then ([], h)
  else
    let loop := pushFull (h.buffer ++ bytes).length (h.buffer ++ bytes)
    (loop.1 ++ [.procFin (paddedChunk loop.2)], ⟨loop.2, h.counter + bytes.length⟩)

/-- A list of commands folded through the hardware, stopping where a command is refused (R230). -/
def runCommands : List Instr → State → Host.Outcome State Fault Refusal
  | [], s => .next s
  | i :: rest, s =>
    match exec i s with
    | .next t => runCommands rest t
    | .fault f => .fault f
    | .refused r => .refused r

/-- The host issues commands: their words wait at the port (R220, log entry 1). -/
def issue (commands : List Instr) (s : State) : State :=
  { s with inputs := s.inputs ++ commands.map fun i => .command (encode i).2 }

/-- The command that constructs an instance in a mode (R250, D3). -/
def initCommand : Mode → Instr
  | .standard => .initStd
  | .random => .initRnd

/-- `absorb` on a host and its instance. -/
def absorbOn (bytes : List Byte) (hs : HostMem × State) : Option (HostMem × State) :=
  match runCommands (absorb bytes hs.1).1 hs.2 with
  | .next t => some ((absorb bytes hs.1).2, t)
  | .fault _ => none
  | .refused _ => none

/-- Host construction (R250): an `INIT`; if it faults, construction fails; then the initial message. -/
def construct (mode : Mode) (message : List Byte) (s : State) : Option (HostMem × State) :=
  match exec (initCommand mode) s with
  | .next t =>
    match t.response with
    | .ok _ => absorbOn message (HostMem.reset, t)
    | .fault _ => none
    | .none => none
  | .fault _ => none
  | .refused _ => none

/-- `digest()` (R259): `RD.DIG` and its bytes. -/
def digest (s : State) : Option (List Byte) :=
  match exec .rdDig s with
  | .next t =>
    match t.response with
    | .ok output => some output
    | .fault _ => none
    | .none => none
  | .fault _ => none
  | .refused _ => none

/-- One lowercase hexadecimal digit. -/
def hexDigit (n : Nibble) : Char :=
  ['0', '1', '2', '3', '4', '5', '6', '7', '8', '9', 'a', 'b', 'c', 'd', 'e', 'f'].getD n.toNat '0'

/-- The characters of `hexDigest()` (R259); the high nibble's digit first is K1 (log entry 18). -/
def hexDigest (bytes : List Byte) : List Char :=
  '0' :: 'x' :: bytes.flatMap fun b => [hexDigit (highNibble b), hexDigit (lowNibble b)]

/-- `hash(m, depth, size, mode)` (R260) on a fresh instance with these parameters. -/
def hashOf (mode : Mode) (message : List Byte) (s : State) : Option (List Byte) :=
  (construct mode message s).bind fun hs => digest hs.2

end Sys2Proof.Machine
end

