-- ==== Sys2Proof/Safety.lean ====
section
/-! DEFINITION. What a good state and a safe step are: the shape every reachable state has
(spec/10_state.md R21, R25, R26, R28, R30) and the stops a step of such a state can end in. -/

namespace Sys2Proof.Machine

/-- The lengths of the arrays: "exactly `depth` layers, each a nibble array of length `size/4`" (R26),
"`lastDigestNibbles` length == `size/4` always" (R28), `N` registers (R21). -/
abbrev State.Shaped (s : State) : Prop :=
  s.kl.length = s.cfg.depth ∧ (∀ K ∈ s.kl, K.length = s.cfg.n) ∧ s.ldn.length = s.cfg.n ∧ s.x.length = s.cfg.n

/-- An active sequencer stands inside the window (R25). -/
abbrev State.seqInRange (s : State) : Prop :=
  ∀ r ∈ s.seq, r.layer < s.cfg.depth ∧ r.g < s.cfg.n

/-- The invariant of the machine: the shape of the arrays; an initialised instance has a configuration the
commands exist for (R222), and a block run takes place only in one (R225, R226). -/
abbrev State.Inv (s : State) : Prop :=
  s.Shaped ∧ s.seqInRange ∧ (s.valid = true → 1 ≤ s.cfg.depth ∧ s.cfg.size = 256) ∧
    (s.seq.isSome = true → s.valid = true)

/-- A `SIZE` the source allows: a positive multiple of 8 (R8). -/
abbrev legalSize (size : Nat) : Prop := 0 < size ∧ size % 8 = 0

/-- No loss of power is the next thing the environment does (R296). -/
abbrev State.Powered (s : State) : Prop := s.inputs.head? ≠ some .powerLoss

/-- `k` steps, stopping at the first fault or refusal: `Host.Core.run` of this machine. -/
def runSteps : Nat → State → Host.Outcome State Fault Refusal
  | 0, s => .next s
  | k + 1, s =>
    match step s with
    | .next t => runSteps k t
    | .fault f => .fault f
    | .refused r => .refused r

/-- The machine goes on: a step answers a next state, or refuses a request that names no command. -/
def State.GoesOn (s : State) : Prop :=
  (∃ t, step s = .next t) ∨ (∃ why, step s = .refused (.undecodable why))

end Sys2Proof.Machine
end

