-- ==== Sys2Proof/Certificates/Slice0/Obligations.lean ====
section
/-! DEFINITION. The statements for the provers. The tables at the top are copied from spec/ and share nothing
with the model's own definitions. -/

open Sys2Proof Sys2Proof.Machine

namespace Sys2Proof.SpecTables

/-- R83, the complete decode of format `K`: nibble, S1 gate, S2 gate. -/
def keyTable : List (Nat × Gate × Gate) :=
  [(0x0, .tofR, .tofR), (0x1, .freR, .tofR), (0x2, .tofM, .tofR), (0x3, .freM, .tofR),
   (0x4, .tofR, .freR), (0x5, .freR, .freR), (0x6, .tofM, .freR), (0x7, .freM, .freR)] ++
  [(0x8, .tofR, .tofM), (0x9, .freR, .tofM), (0xa, .tofM, .tofM), (0xb, .freM, .tofM),
   (0xc, .tofR, .freM), (0xd, .freR, .freM), (0xe, .tofM, .freM), (0xf, .freM, .freM)]

/-- R118, the truth tables: the images of 000, 001, ..., 111, a value written `4*v1 + 2*v2 + v3`. -/
def truthTable : Gate → List Nat
  | .tofR => [0, 1, 2, 3, 4, 5, 7, 6]
  | .freR => [0, 1, 2, 3, 4, 6, 5, 7]
  | .tofM => [0, 1, 2, 7, 4, 5, 6, 3]
  | .freM => [0, 1, 2, 5, 4, 3, 6, 7]

/-- R123, the S1 nibble maps of an even round. -/
def evenMap : Gate → List Nat
  | .tofR => [0x0, 0x1, 0x2, 0x7, 0x4, 0x5, 0x6, 0x3, 0x8, 0x9, 0xa, 0xf, 0xc, 0xd, 0xe, 0xb]
  | .freR => [0x0, 0x1, 0x2, 0x5, 0x4, 0x3, 0x6, 0x7, 0x8, 0x9, 0xa, 0xd, 0xc, 0xb, 0xe, 0xf]
  | .tofM => [0x0, 0x1, 0x2, 0x3, 0x4, 0x5, 0x7, 0x6, 0x8, 0x9, 0xa, 0xb, 0xc, 0xd, 0xf, 0xe]
  | .freM => [0x0, 0x1, 0x2, 0x3, 0x4, 0x6, 0x5, 0x7, 0x8, 0x9, 0xa, 0xb, 0xc, 0xe, 0xd, 0xf]

/-- R123, the S1 nibble maps of an odd round. -/
def oddMap : Gate → List Nat
  | .tofR => [0x0, 0x1, 0x2, 0x3, 0x4, 0x5, 0xe, 0xf, 0x8, 0x9, 0xa, 0xb, 0xc, 0xd, 0x6, 0x7]
  | .freR => [0x0, 0x1, 0x2, 0x3, 0x4, 0x5, 0xa, 0xb, 0x8, 0x9, 0x6, 0x7, 0xc, 0xd, 0xe, 0xf]
  | .tofM => [0x0, 0x1, 0x2, 0x3, 0x4, 0x5, 0x6, 0x7, 0x8, 0x9, 0xa, 0xb, 0xe, 0xf, 0xc, 0xd]
  | .freM => [0x0, 0x1, 0x2, 0x3, 0x4, 0x5, 0x6, 0x7, 0x8, 0x9, 0xc, 0xd, 0xa, 0xb, 0xe, 0xf]

/-- The image of a nibble under the S1 map of a gate in a round. -/
def nibbleMap (layer : Nat) (gate : Gate) (v : Nibble) : Nibble :=
  BitVec.ofNat 4 ((if layer % 2 = 0 then evenMap gate else oddMap gate).getD v.toNat 0)

/-- The operation of a gate in a slot, with the two bits its row does not constrain (R90). -/
def gateInstr : Sublayer → Gate → Nat → Nat → BitVec 2 → Instr
  | .s1, .tofR => .s1TofR
  | .s1, .freR => .s1FreR
  | .s1, .tofM => .s1TofM
  | .s1, .freM => .s1FreM
  | .s2, .tofR => .s2TofR
  | .s2, .freR => .s2FreR
  | .s2, .tofM => .s2TofM
  | .s2, .freM => .s2FreM

/-- Three wires read as one number, `4*v1 + 2*v2 + v3`. -/
def threeWires (x : List Nibble) (w0 w1 w2 : Nat) : Nat :=
  4 * (readWire x w0).toNat + 2 * (readWire x w1).toNat + (readWire x w2).toNat

/-- R171 as text: "render each as a 10-hexadecimal-digit zero-padded string, keep the rightmost 10 characters,
and read the first 8 characters as nibble values"; most significant digit first. -/
def renderedSeed (c : BitVec 64) : List Nat :=
  let digits := (Nat.digits 16 c.toNat).reverse
  let padded := List.replicate (10 - digits.length) 0 ++ digits
  (padded.drop (padded.length - 10)).take 8

/-- The phase in which a sublayer's gates run. -/
def slotPhase : Sublayer → Phase
  | .s1 => .s1
  | .s2 => .s2

/-- The command that processes a chunk for a destination. -/
def procCommand : Dest → Chunk → Instr
  | .push => .procPush
  | .fin => .procFin

end Sys2Proof.SpecTables

open Sys2Proof.SpecTables

/-! ### Encodings -/

/-- R82, R83: every key nibble decodes, in each phase, as the complete table says. -/
def Obligations.KeyNibbleDecodesAsTable : Prop :=
  ∀ (layer g : Nat), ∀ row ∈ keyTable,
    let k : Nibble := BitVec.ofNat 4 row.1
    decode (.key layer .mix g) [BitVec.ofNat 8 row.1] = .ok (.mix layer g k) ∧
    decode (.key layer .s1 g) [BitVec.ofNat 8 row.1]
      = .ok (gateInstr .s1 row.2.1 layer g (k.extractLsb' 2 2)) ∧
    decode (.key layer .s2 g) [BitVec.ofNat 8 row.1]
      = .ok (gateInstr .s2 row.2.2 layer g (k.extractLsb' 0 2))

/-- A few words written out from the spec's encodings (R81, R89) decode to what they stand for. -/
def Obligations.WordsOfTheSpecDecode : Prop :=
  decodeTableWord 4 0b1010 = some (.s2TofM 0 0 0b10#2) ∧
  decodeTableWord 4 0b0011 = some (.s1FreM 0 0 0b00#2) ∧
  decodeTableWord 3 0b000 = some .initStd ∧
  decodeTableWord 3 0b001 = some .initRnd ∧
  decodeTableWord 3 0b100 = some .rdDig ∧
  decodeTableWord 3 0b101 = none

/-- Decode and encode are inverse to each other: no bit of a word is dropped in either direction. -/
def Obligations.DecodeAndEncodeAreInverse : Prop :=
  (∀ i : Instr, decode (encode i).1 (encode i).2 = .ok i) ∧
  (∀ (slot : Slot) (bytes : List Byte) (i : Instr), decode slot bytes = .ok i → encode i = (slot, bytes))

/-- R89: codes 5, 6 and 7 name no command; an idle machine refuses such a request by name. -/
def Obligations.SpareCodesNameNoCommand : Prop :=
  ∀ (s : State) (b : Byte) (arg : List Byte) (rest : List Input),
    s.seq = none → s.inputs = .command (b :: arg) :: rest → 5 ≤ b.toNat → b.toNat < 8 →
      step s = .refused (.undecodable (.noCommand (BitVec.ofNat 3 b.toNat)))

/-! ### Wires -/

/-- R53: a wire write changes exactly one bit of one nibble, and writing the value a wire holds changes
nothing. -/
def Obligations.WireWriteChangesExactlyOneWire : Prop :=
  ∀ (x : List Nibble) (w : Nat) (b : Bool), w / 4 < x.length →
    (writeWire x w b).length = x.length ∧
    (∀ j, j ≠ w / 4 → (writeWire x w b)[j]? = x[j]?) ∧
    (∃ v, (writeWire x w b)[w / 4]? = some v ∧ v.getLsbD (w % 4) = b ∧
      ∀ p, p < 4 → p ≠ w % 4 → v.getLsbD p = (x.getD (w / 4) 0#4).getLsbD p) ∧
    writeWire x w (readWire x w) = x

/-- R51 (marked derived): after `unpack`, wire `w` holds bit `4 + (w mod 4)` of byte `w / 8` in a high nibble and bit
`w mod 4` in a low one. -/
def Obligations.UnpackedChunkBitsLandOnWires : Prop :=
  ∀ (c : Chunk) (w : Nat), w < 256 →
    readWire (unpack c) w =
      (c.toList.getD (w / 8) 0#8).getLsbD (if (w / 4) % 2 = 0 then 4 + w % 4 else w % 4)

/-- R111: the four cases of wire addressing and where the wires lie. -/
def Obligations.WireAddressingFourCases : Prop :=
  ∀ (size layer g k : Nat), legalSize size → g < size / 4 → k < 3 →
    (layer % 2 = 0 → wire size layer .s1 g k = 4 * g + k ∧ wire size layer .s2 g k = (4 * g + 2 + k) % size) ∧
    (layer % 2 = 1 → wire size layer .s1 g k = 4 * g + 1 + k ∧ wire size layer .s2 g k = (4 * g + 3 + k) % size) ∧
    (wire size layer .s1 g k / 4 = g ∧ wire size layer .s1 g k % 4 = layer % 2 + k) ∧
    (wire size layer .s2 g k / 4 = (if layer % 2 + k < 2 then g else (g + 1) % (size / 4)) ∧
      wire size layer .s2 g k % 4 = (layer % 2 + 2 + k) % 4)

/-- R112, R113 (marked derived): the three wires of a gate differ, two gates of one sublayer share no
wire, and each sublayer leaves one residue class of wires alone. -/
def Obligations.GatesOfASublayerAreDisjoint : Prop :=
  ∀ (size layer : Nat) (sub : Sublayer) (g g' k k' : Nat), legalSize size → g < size / 4 → g' < size / 4 →
    k < 3 → k' < 3 →
    (k ≠ k' → wire size layer sub g k ≠ wire size layer sub g k') ∧
    (g ≠ g' → wire size layer sub g k ≠ wire size layer sub g' k') ∧
    (layer % 2 = 0 → wire size layer .s2 g k % 4 ≠ 1 ∧ wire size layer .s1 g k % 4 ≠ 3) ∧
    (layer % 2 = 1 → wire size layer .s2 g k % 4 ≠ 2 ∧ wire size layer .s1 g k % 4 ≠ 0)

/-! ### Gates: result, completion and frame -/

/-- R114, both slots: gate type 00 is `TOF.R`, which flips its third wire exactly when the first two are 1; every
other wire and the rest of the state keep their values. -/
def Obligations.ToffoliRegularResultAndFrame : Prop :=
  ∀ (s : State) (layer g : Nat) (bits : BitVec 2),
    legalSize s.cfg.size → s.x.length = s.cfg.n →
    ∀ p ∈ [(Instr.s1TofR layer g bits, Sublayer.s1, bits ++ 0b00#2),
      (Instr.s2TofR layer g bits, Sublayer.s2, 0b00#2 ++ bits)],
    let w := wire s.cfg.size layer p.2.1 g
    decode (.key layer (slotPhase p.2.1) g) [p.2.2.setWidth 8] = .ok p.1 ∧
    ∃ t, exec p.1 s = .next t ∧ t = { s with x := t.x } ∧ t.x.length = s.x.length ∧
      ∀ v, v < s.cfg.size → readWire t.x v =
        if v = w 2 then (if readWire s.x (w 0) && readWire s.x (w 1) then !readWire s.x (w 2) else readWire s.x (w 2))
        else readWire s.x v

/-- R115, both slots: gate type 10 is `TOF.M`, which flips its first wire exactly when the last two are 1. -/
def Obligations.ToffoliMirroredResultAndFrame : Prop :=
  ∀ (s : State) (layer g : Nat) (bits : BitVec 2),
    legalSize s.cfg.size → s.x.length = s.cfg.n →
    ∀ p ∈ [(Instr.s1TofM layer g bits, Sublayer.s1, bits ++ 0b10#2),
      (Instr.s2TofM layer g bits, Sublayer.s2, 0b10#2 ++ bits)],
    let w := wire s.cfg.size layer p.2.1 g
    decode (.key layer (slotPhase p.2.1) g) [p.2.2.setWidth 8] = .ok p.1 ∧
    ∃ t, exec p.1 s = .next t ∧ t = { s with x := t.x } ∧ t.x.length = s.x.length ∧
      ∀ v, v < s.cfg.size → readWire t.x v =
        if v = w 0 then (if readWire s.x (w 1) && readWire s.x (w 2) then !readWire s.x (w 0) else readWire s.x (w 0))
        else readWire s.x v

/-- R116, both slots: gate type 01 is `FRE.R`, which swaps its last two wires exactly when the first is 1 and they
differ. -/
def Obligations.FredkinRegularResultAndFrame : Prop :=
  ∀ (s : State) (layer g : Nat) (bits : BitVec 2),
    legalSize s.cfg.size → s.x.length = s.cfg.n →
    ∀ p ∈ [(Instr.s1FreR layer g bits, Sublayer.s1, bits ++ 0b01#2),
      (Instr.s2FreR layer g bits, Sublayer.s2, 0b01#2 ++ bits)],
    let w := wire s.cfg.size layer p.2.1 g
    decode (.key layer (slotPhase p.2.1) g) [p.2.2.setWidth 8] = .ok p.1 ∧
    ∃ t, exec p.1 s = .next t ∧ t = { s with x := t.x } ∧ t.x.length = s.x.length ∧
      ∀ v, v < s.cfg.size → readWire t.x v =
        let fires := readWire s.x (w 0) && (readWire s.x (w 1) != readWire s.x (w 2))
        if v = w 1 then (if fires then readWire s.x (w 2) else readWire s.x (w 1))
        else if v = w 2 then (if fires then readWire s.x (w 1) else readWire s.x (w 2))
        else readWire s.x v

/-- R117, both slots: gate type 11 is `FRE.M`, which swaps its first two wires exactly when the last is 1 and they
differ. -/
def Obligations.FredkinMirroredResultAndFrame : Prop :=
  ∀ (s : State) (layer g : Nat) (bits : BitVec 2),
    legalSize s.cfg.size → s.x.length = s.cfg.n →
    ∀ p ∈ [(Instr.s1FreM layer g bits, Sublayer.s1, bits ++ 0b11#2),
      (Instr.s2FreM layer g bits, Sublayer.s2, 0b11#2 ++ bits)],
    let w := wire s.cfg.size layer p.2.1 g
    decode (.key layer (slotPhase p.2.1) g) [p.2.2.setWidth 8] = .ok p.1 ∧
    ∃ t, exec p.1 s = .next t ∧ t = { s with x := t.x } ∧ t.x.length = s.x.length ∧
      ∀ v, v < s.cfg.size → readWire t.x v =
        let fires := readWire s.x (w 2) && (readWire s.x (w 0) != readWire s.x (w 1))
        if v = w 0 then (if fires then readWire s.x (w 1) else readWire s.x (w 0))
        else if v = w 1 then (if fires then readWire s.x (w 0) else readWire s.x (w 1))
        else readWire s.x v

/-- R118 (marked derived): on its three wires every gate step acts by its column of the complete truth table. -/
def Obligations.GateStepsFollowTruthTables : Prop :=
  ∀ (s : State) (sub : Sublayer) (gate : Gate) (layer g : Nat) (bits : BitVec 2),
    legalSize s.cfg.size → s.x.length = s.cfg.n →
    let w := wire s.cfg.size layer sub g
    ∃ t, exec (gateInstr sub gate layer g bits) s = .next t ∧
      threeWires t.x (w 0) (w 1) (w 2) = (truthTable gate).getD (threeWires s.x (w 0) (w 1) (w 2)) 0

/-- R123 (marked derived): an S1 gate step is a map on one nibble, the one the spec tabulates. -/
def Obligations.SublayerOneGatesAreNibbleMaps : Prop :=
  ∀ (s : State) (gate : Gate) (layer g : Nat) (bits : BitVec 2),
    legalSize s.cfg.size → s.x.length = s.cfg.n → g < s.cfg.n →
    exec (gateInstr .s1 gate layer g bits) s
      = .next { s with x := s.x.set g (nibbleMap layer gate (s.x.getD g 0#4)) }

/-- R119 (gates; marked derived) and R141 (`MIX` is its own inverse): every key-nibble operation undoes itself. -/
def Obligations.KeyOperationsAreInvolutions : Prop :=
  ∀ (s : State) (i : Instr), i.isKeyOp = true → legalSize s.cfg.size → s.x.length = s.cfg.n →
    ∃ t, exec i s = .next t ∧ exec i t = .next s

/-- R120 (marked derived): the mirrored gate is the regular gate with the wire order reversed. -/
def Obligations.MirroredGatesReverseTheWires : Prop :=
  ∀ (w0 w1 w2 : Nat) (x : List Nibble), w0 ≠ w1 → w1 ≠ w2 → w0 ≠ w2 →
    applyGate .tofM w0 w1 w2 x = applyGate .tofR w2 w1 w0 x ∧
    applyGate .freM w0 w1 w2 x = applyGate .freR w2 w1 w0 x

/-- R141: `MIX` is the use of the whole key nibble; it XORs it into `x[g]`, inverting wire `4g + j` exactly when
bit `j` of the key nibble is 1, changes nothing else and is its own inverse; the phase does so for every `g`. -/
def Obligations.MixResultAndFrame : Prop :=
  (∀ (s : State) (layer g : Nat) (k : Nibble), g < s.x.length →
    decode (.key layer .mix g) [k.setWidth 8] = .ok (.mix layer g k) ∧
    ∃ t, exec (.mix layer g k) s = .next t ∧ t = { s with x := t.x } ∧
      t.x[g]? = some (s.x.getD g 0#4 ^^^ k) ∧ (∀ j, j ≠ g → t.x[j]? = s.x[j]?) ∧
      (∀ j, j < 4 → readWire t.x (4 * g + j) = (readWire s.x (4 * g + j) ^^ k.getLsbD j)) ∧
      exec (.mix layer g k) t = .next s) ∧
  (∀ (size : Nat) (K x : List Nibble), K.length = size / 4 → x.length = size / 4 →
    mixPhase size K x = List.zipWith (fun a b => a ^^^ b) x K)

/-! ### Phases, rounds and the block run -/

/-- R153 (marked derived), its S1 part: sublayer 1 is a lane-wise map, with the nibble map R123
gives for each lane's `gt1`. -/
def Obligations.SublayerOneIsLanewiseMap : Prop :=
  ∀ (size layer : Nat) (K x : List Nibble), legalSize size → K.length = size / 4 → x.length = size / 4 →
    sublayer size layer .s1 K x
      = List.zipWith (fun a k => nibbleMap layer (gateOfType (k.extractLsb' 0 2)) a) x K

/-- R62, R316 (marked derived): a phase gives the same result in whatever order of `g` its operations are done. -/
def Obligations.PhaseResultIndependentOfOrder : Prop :=
  ∀ (size layer : Nat) (K x : List Nibble) (order : List Nat), legalSize size → x.length = size / 4 →
    order.Perm (List.range (size / 4)) →
    order.foldl (fun y g => mixNibble g (K.getD g 0#4) y) x = mixPhase size K x ∧
    ∀ sub, order.foldl (keyGate size layer sub K) x = sublayer size layer sub K x

/-- R154 (marked derived): a round is undone by its sublayers and its mix taken in reverse, with the same key layer. -/
def Obligations.RoundIsUndoneByReversedPhases : Prop :=
  ∀ (size layer : Nat) (K x : List Nibble), legalSize size → x.length = size / 4 →
    mixPhase size K (sublayer size layer .s1 K (sublayer size layer .s2 K (applyLayer size layer K x))) = x ∧
    applyLayer size layer K (mixPhase size K (sublayer size layer .s1 K (sublayer size layer .s2 K x))) = x

/-- R155 (marked derived): for a fixed window, `permute` is a bijection on the arrays of `N` nibbles, and for
`SIZE = 256` `processBlock` is a bijection from the chunks onto the arrays of 64 nibbles. -/
def Obligations.PermuteAndProcessBlockAreBijective : Prop :=
  (∀ (size depth : Nat) (kl : List (List Nibble)), legalSize size →
    ∀ y : List Nibble, y.length = size / 4 → ∃! x : List Nibble, x.length = size / 4 ∧ permute size depth kl x = y) ∧
  (∀ (depth : Nat) (kl : List (List Nibble)) (y : List Nibble), y.length = 64 →
    ∃! c : Chunk, processBlock 256 depth kl c = y)

/-- R156 (marked derived): with an all-zero window the all-zero state is mapped to itself; any other key layer
replaces it, `MIX` turning the zero state into the layer. -/
def Obligations.ZeroWindowFixesZeroState : Prop :=
  ∀ (size depth : Nat), legalSize size →
    permute size depth (List.replicate depth (List.replicate (size / 4) 0#4)) (List.replicate (size / 4) 0#4)
      = List.replicate (size / 4) 0#4 ∧
    ∀ K : List Nibble, K.length = size / 4 → mixPhase size K (List.replicate (size / 4) 0#4) = K

/-- R146 to R150, D10: the block run one key nibble at a time, from `(0, MIX, 0)`, takes `3 × N × DEPTH` steps
and ends in exactly the state the atomic command gives. -/
def Obligations.SequencerRunEqualsCommand : Prop :=
  ∀ (s : State) (dest : Dest) (c : Chunk), s.Inv → s.valid = true → s.seq = none → s.Powered →
    runSteps (3 * s.cfg.n * s.cfg.depth) (beginBlock dest c s) = exec (procCommand dest c) s

/-- R66, R148: until its last step a block run changes `x` and the sequencer position only: no rule writes
`KL` or `LDN`, and the host is handed nothing. -/
def Obligations.BlockRunWritesOnlyWorkingState : Prop :=
  ∀ (s : State) (dest : Dest) (c : Chunk) (j : Nat), s.Inv → s.valid = true → s.seq = none → s.Powered →
    j < 3 * s.cfg.n * s.cfg.depth →
    ∃ t, runSteps j (beginBlock dest c s) = .next t ∧
      t.seq.isSome = true ∧ t = { s with x := t.x, seq := t.seq }

/-! ### The step -/

/-- A step runs the decoded instruction: idle, the command at the head of the port; inside a block run, unless the
power goes, the key nibble at the sequencer's position, after which the sequencer advances; with nothing to do it
waits (R313); a loss of power comes before anything else (R296, log entry 21). -/
def Obligations.StepRunsTheDecodedInstruction : Prop :=
  (∀ (s : State) (bytes : List Byte) (rest : List Input) (i : Instr),
    s.seq = none → s.inputs = .command bytes :: rest → decode .command bytes = .ok i →
      step s = exec i { s with inputs := rest }) ∧
  (∀ (s t : State) (r : BlockRun) (k : Nibble) (i : Instr),
    s.seq = some r → s.Powered → keyNibble? s.kl r.layer r.g = some k →
      decode (.key r.layer r.phase r.g) [keyByte k] = .ok i → exec i s = .next t → step s = .next (advance t)) ∧
  (∀ s : State, s.seq = none → s.inputs = [] → step s = .next s) ∧
  (∀ (s : State) (rest : List Input), s.inputs = .powerLoss :: rest → step s = .next (losePower s))

/-! ### Commands: result, completion and frame -/

/-- R221 with R171 to R175 and R177: `INIT.STD` on a configuration that passes the checks writes the standard
schedule, clears `LDN` and sets `VALID`; on any other it raises an exception and changes nothing. The bit formula of
the seed nibbles is R172, marked derived; that schedule layer `i` is `KL[i]` is decision D21 (log entry 20). -/
def Obligations.InitStdResult : Prop :=
  ∀ s : State, s.seq = none →
    (1 ≤ s.cfg.depth ∧ s.cfg.size = 256 →
      ∃ t, exec .initStd s = .next t ∧
        t.valid = true ∧ t.cfg = s.cfg ∧ t.seq = none ∧ t.inputs = s.inputs ∧ t.response = .ok [] ∧
        t.ldn = List.replicate 64 0#4 ∧ t.kl.length = s.cfg.depth ∧ (∀ K ∈ t.kl, K.length = 64) ∧
        (∀ i (h : i < 64), i < s.cfg.depth →
          (∀ p, p < 8 → keyNibble? t.kl i p = some ((s.cfg.rom[i]).extractLsb' (36 - 4 * p) 4)) ∧
          (∀ p, 8 ≤ p → p < 64 → keyNibble? t.kl i p = some (BitVec.ofNat 4 ((i + 1) % 16)))) ∧
        (∀ i, 64 ≤ i → i < s.cfg.depth → ∀ j, j < 64 →
          keyNibble? t.kl i j = some (BitVec.ofNat 4 ((i + j) % 16)))) ∧
    (¬ (1 ≤ s.cfg.depth ∧ s.cfg.size = 256) → ∃ e, exec .initStd s = .next { s with response := .fault e })

/-- R223: `INIT.RND` on a configuration that passes the checks fills the window with the draws, layer-major, clears
`LDN` and sets `VALID`; on any other it raises an exception and changes nothing. The draws are the open
`Config.prng`; the statement holds for every value of it. -/
def Obligations.InitRndResult : Prop :=
  ∀ s : State, s.seq = none →
    (1 ≤ s.cfg.depth ∧ s.cfg.size = 256 →
      ∃ t, exec .initRnd s = .next t ∧
        t.valid = true ∧ t.cfg = s.cfg ∧ t.seq = none ∧ t.inputs = s.inputs ∧ t.response = .ok [] ∧
        t.ldn = List.replicate 64 0#4 ∧ t.kl.length = s.cfg.depth ∧ (∀ K ∈ t.kl, K.length = 64) ∧
        ∀ i g, i < s.cfg.depth → g < 64 → keyNibble? t.kl i g = some (Config.prng (i * 64 + g))) ∧
    (¬ (1 ≤ s.cfg.depth ∧ s.cfg.size = 256) → ∃ e, exec .initRnd s = .next { s with response := .fault e })

/-- R171 to R174 for every `N`: the seed nibbles are the first eight of the rightmost ten characters of the
hexadecimal rendering, the rest is the fill; layers past the table are `(i+j) mod 16`. -/
def Obligations.StandardLayersFollowTheRendering : Prop :=
  ∀ (rom : Vector (BitVec 64) 64) (n i : Nat),
    (stdLayer rom n i).length = n ∧
    (∀ (h : i < 64) (p : Nat), p < n → p < 8 →
      ((stdLayer rom n i)[p]?).map BitVec.toNat = (renderedSeed rom[i])[p]?) ∧
    (i < 64 → ∀ p, 8 ≤ p → p < n → (stdLayer rom n i)[p]? = some (BitVec.ofNat 4 ((i + 1) % 16))) ∧
    (64 ≤ i → ∀ j, j < n → (stdLayer rom n i)[j]? = some (BitVec.ofNat 4 ((i + j) % 16)))

/-- R87, R172: only bits 39 to 8 of the ROM words reach the window. -/
def Obligations.OnlyMiddleRomBitsReachTheWindow : Prop :=
  ∀ (rom rom' : Vector (BitVec 64) 64) (n i : Nat),
    (∀ (j : Nat) (h : j < 64) (b : Nat), 8 ≤ b → b ≤ 39 → (rom[j]).getLsbD b = (rom'[j]).getLsbD b) →
    stdLayer rom n i = stdLayer rom' n i

/-- R224: an `INIT` leaves the same `VALID`, `KL`, `LDN` and answer whatever came before: nothing of the earlier
state survives. -/
def Obligations.InitForgetsEarlierState : Prop :=
  ∀ (s s' : State), s.seq = none → s'.seq = none → s.cfg = s'.cfg → 1 ≤ s.cfg.depth → s.cfg.size = 256 →
    ∀ i ∈ [Instr.initStd, Instr.initRnd],
    ∃ t t', exec i s = .next t ∧ exec i s' = .next t' ∧
      t.valid = t'.valid ∧ t.kl = t'.kl ∧ t.ldn = t'.ldn ∧ t.seq = t'.seq ∧ t.response = t'.response

/-- R225 with R178: `PROC.PUSH` runs the block on the window as it is, then pushes the result to the front and
discards the oldest layer; `LDN` is not written; while `VALID` is 0 it raises `NotInitialised`. -/
def Obligations.ProcPushResult : Prop :=
  ∀ (s : State) (c : Chunk), s.Inv → s.seq = none →
    (s.valid = true →
      ∃ t, exec (.procPush c) s = .next t ∧
        t.kl.length = s.cfg.depth ∧ t.kl[0]? = some (processBlock s.cfg.size s.cfg.depth s.kl c) ∧
        (∀ l, 1 ≤ l → l < s.cfg.depth → t.kl[l]? = s.kl[l - 1]?) ∧
        t.ldn = s.ldn ∧ t.valid = true ∧ t.cfg = s.cfg ∧ t.seq = none ∧ t.inputs = s.inputs ∧
        t.response = .ok []) ∧
    (s.valid = false → exec (.procPush c) s = .next { s with response := .fault .notInitialised })

/-- R226: `PROC.FIN` writes the block result to `LDN` and leaves `KL` alone; a second `PROC.FIN` of the same
chunk gives the same `LDN`; while `VALID` is 0 it raises `NotInitialised`. -/
def Obligations.ProcFinResult : Prop :=
  ∀ (s : State) (c : Chunk), s.seq = none →
    (s.valid = true →
      ∃ t, exec (.procFin c) s = .next t ∧
        t.ldn = processBlock s.cfg.size s.cfg.depth s.kl c ∧ t.kl = s.kl ∧ t.valid = true ∧ t.cfg = s.cfg ∧
        t.seq = none ∧ t.inputs = s.inputs ∧ t.response = .ok [] ∧
        ∃ t', exec (.procFin c) t = .next t' ∧ t'.ldn = t.ldn ∧ t'.kl = t.kl) ∧
    (s.valid = false → exec (.procFin c) s = .next { s with response := .fault .notInitialised })

/-- R228: `RD.DIG` answers the `B` bytes packed from `LDN` and writes nothing, so it answers them again; they are
all zero while `LDN` is clear; while `VALID` is 0 it raises `NotInitialised`. -/
def Obligations.RdDigResult : Prop :=
  ∀ s : State, s.Inv → s.seq = none →
    (s.valid = true →
      ∃ out : List Byte, exec .rdDig s = .next { s with response := .ok out } ∧
        exec .rdDig { s with response := .ok out } = .next { s with response := .ok out } ∧ out.length = s.cfg.b ∧
        (∀ i, i < s.cfg.b → ∃ b, out[i]? = some b ∧
          s.ldn[2 * i]? = some (b.extractLsb' 4 4) ∧ s.ldn[2 * i + 1]? = some (b.extractLsb' 0 4)) ∧
        (s.ldn = List.replicate s.cfg.n 0#4 → out = List.replicate s.cfg.b 0#8)) ∧
    (s.valid = false → exec .rdDig s = .next { s with response := .fault .notInitialised })

/-- R202, R203: `pack` of an array of any length gives `SIZE/8` bytes, with 0 for a nibble out of range. -/
def Obligations.PackCombinesNibblePairs : Prop :=
  ∀ (size : Nat) (n : List Nibble), (pack size n).length = size / 8 ∧
    ∀ i, i < size / 8 → ∃ b, (pack size n)[i]? = some b ∧
      b.extractLsb' 4 4 = (n[2 * i]?).getD 0#4 ∧ b.extractLsb' 0 4 = (n[2 * i + 1]?).getD 0#4

/-- R204 (marked derived): for `SIZE = 256`, `pack` and `unpack` are inverse to each other. -/
def Obligations.PackAndUnpackAreInverse : Prop :=
  (∀ c : Chunk, pack 256 (unpack c) = c.toList) ∧
  (∀ n : List Nibble, n.length = 64 → ∃ c : Chunk, c.toList = pack 256 n ∧ unpack c = n)

/-- L5 (R155, R226, R228): for a fixed window, two different chunks give two different digests. -/
def Obligations.DifferentChunksDifferentDigests : Prop :=
  ∀ (s : State) (c c' : Chunk), s.Inv → s.valid = true → s.seq = none → c ≠ c' →
    ∃ t t' d d', exec (.procFin c) s = .next t ∧ exec (.procFin c') s = .next t' ∧
      digest t = some d ∧ digest t' = some d' ∧ d ≠ d'

/-! ### Exceptions -/

/-- R283: while `VALID` is 0 the three commands that need an instance raise `NotInitialised` and do nothing. -/
def Obligations.NotInitialisedWhileInvalid : Prop :=
  ∀ (s : State) (c : Chunk), s.seq = none → s.valid = false →
    ∀ i ∈ [Instr.procPush c, Instr.procFin c, Instr.rdDig],
      exec i s = .next { s with response := .fault .notInitialised }

/-- R281, R282, R287: the checks of an `INIT`, in their order, each with what it records and no state change. The
order is the spec's own decision D15 (log entry 20). -/
def Obligations.InitChecksInOrder : Prop :=
  ∀ s : State, s.seq = none → ∀ i ∈ [Instr.initStd, Instr.initRnd],
    (s.cfg.depth < 1 → exec i s = .next { s with response := .fault (.configError .depth) }) ∧
    (1 ≤ s.cfg.depth → ¬ legalSize s.cfg.size → exec i s = .next { s with response := .fault (.configError .size) }) ∧
    (1 ≤ s.cfg.depth → legalSize s.cfg.size → s.cfg.size ≠ 256 →
      exec i s = .next { s with response := .fault (.unsupportedSize s.cfg.size) })

/-- R288: a command that raises an exception hands it to the host and leaves the state exactly as it was. -/
def Obligations.FaultingCommandChangesNothing : Prop :=
  ∀ (s t : State) (i : Instr) (e : Exception), i.isKeyOp = false → exec i s = .next t → t.response = .fault e →
    t = { s with response := .fault e }

/-- R285: on an initialised instance every command with every chunk succeeds. -/
def Obligations.EveryCommandSucceedsOnceInitialised : Prop :=
  ∀ (s : State) (i : Instr), s.Inv → s.valid = true → s.seq = none → i.isKeyOp = false →
    ∃ t out, exec i s = .next t ∧ t.response = .ok out

/-- R262, R322 with I10's `refuse`: a command issued while a block run is in progress is refused by name. The
form of the stop is log entry 11. -/
def Obligations.CommandDuringBlockRunRefused : Prop :=
  ∀ (s : State) (r : BlockRun) (i : Instr), s.seq = some r → i.isKeyOp = false →
    exec i s = .refused .commandWhileRunning

/-! ### Rules about the whole machine -/

/-- R29, R30, D6: no step changes the configuration; no command clears `VALID`, and a step does so only where it
takes a loss of power. -/
def Obligations.ConfigurationFixedAndOnlyPowerLossClearsValid : Prop :=
  (∀ s t : State, step s = .next t → t.cfg = s.cfg ∧
    (s.valid = true → t.valid = false → s.inputs = .powerLoss :: t.inputs)) ∧
  (∀ (s t : State) (i : Instr), exec i s = .next t → t.cfg = s.cfg ∧ (s.valid = true → t.valid = true))

/-- R27, R28, R30: which operations write the window, the result register and `VALID`. -/
def Obligations.OnlyTheNamedCommandsWriteState : Prop :=
  ∀ (s t : State) (i : Instr), exec i s = .next t →
    (t.kl ≠ s.kl → i = .initStd ∨ i = .initRnd ∨ ∃ c, i = .procPush c) ∧
    (t.ldn ≠ s.ldn → i = .initStd ∨ i = .initRnd ∨ ∃ c, i = .procFin c) ∧
    (t.valid ≠ s.valid → i = .initStd ∨ i = .initRnd) ∧
    t.inputs = s.inputs

/-- R24 (marked derived): no command depends on what an earlier one left in `x`: from two idle states that
differ only in `x`
(and in the model's own count of free values) a step that takes no loss of power goes the same way and answers
states that differ only there. -/
def Obligations.CommandsNeverReadOldWorkingState : Prop :=
  ∀ (s : State) (x' : List Nibble) (d : Nat), s.seq = none → s.Powered →
    (∃ t t', step s = .next t ∧ step { s with x := x', draws := d } = .next t' ∧
      { t' with x := t.x, draws := t.draws } = t) ∨
    (∃ why, step s = .refused why ∧ step { s with x := x', draws := d } = .refused why)

/-- R311: at power-on `VALID` is 0, every command but an `INIT` raises `NotInitialised`, and an `INIT` succeeds. -/
def Obligations.PowerOnAwaitsInit : Prop :=
  State.reset.valid = false ∧
  (∀ (c : Chunk), ∀ i ∈ [Instr.procPush c, Instr.procFin c, Instr.rdDig],
    exec i State.reset = .next { State.reset with response := .fault .notInitialised }) ∧
  ∀ i ∈ [Instr.initStd, Instr.initRnd], ∃ t, exec i State.reset = .next t ∧ t.valid = true

/-- R289 (marked derived): on a configuration the commands do not exist for, every step leaves the instance
uninitialised, and every command that runs hands the host an exception. -/
def Obligations.BadConfigurationNeverInitialises : Prop :=
  ∀ s t : State, s.seq = none → s.valid = false → ¬ (1 ≤ s.cfg.depth ∧ s.cfg.size = 256) → step s = .next t →
    t.seq = none ∧ t.valid = false ∧ t.cfg = s.cfg ∧
      (s.inputs = [] ∨ s.inputs = .powerLoss :: t.inputs ∨ ∃ e, t.response = .fault e)

/-- R296 with R36: between commands the hardware holds its state; a loss of power, at any moment and inside a block
run too, returns the instance to power-on. From there it is as after reset: the three commands that need an
instance raise `NotInitialised`, and an `INIT` that the configuration allows starts it again. What `KL`, `LDN` and
`x` hold is unspecified; only their lengths are stated. How the loss reaches the machine is log entry 21. -/
def Obligations.PowerLossReturnsToPowerOn : Prop :=
  (∀ s : State, s.seq = none → s.inputs = [] → step s = .next s) ∧
  ∀ (s : State) (rest : List Input), s.inputs = .powerLoss :: rest →
    ∃ t, step s = .next t ∧ t.valid = false ∧ t.seq = none ∧ t.response = .none ∧ t.cfg = s.cfg ∧
      t.inputs = rest ∧ t.Shaped ∧
      (s.cfg = State.reset.cfg → rest = [] →
        { t with kl := State.reset.kl, ldn := State.reset.ldn, x := State.reset.x, draws := State.reset.draws }
          = State.reset) ∧
      (∀ (c : Chunk), ∀ i ∈ [Instr.procPush c, Instr.procFin c, Instr.rdDig],
        exec i t = .next { t with response := .fault .notInitialised }) ∧
      (1 ≤ s.cfg.depth → s.cfg.size = 256 →
        ∀ i ∈ [Instr.initStd, Instr.initRnd], ∃ u, exec i t = .next u ∧ u.valid = true)

/-- The invariant holds at reset (log entries 4 and 8: the reset contents are the model's). -/
def Obligations.ResetMeetsInvariant : Prop := State.reset.Inv

/-- R26, R28, L7: every step keeps the invariant: `DEPTH` layers of `N` nibbles, `N` nibbles of `LDN` and `x`,
the sequencer inside the window, commands only on a supported configuration. -/
def Obligations.EveryStepKeepsInvariant : Prop :=
  ∀ s t : State, s.Inv → step s = .next t → t.Inv

/-- R230, R286: from every state that meets the invariant a step answers a next state, or refuses a request that
names no command. -/
def Obligations.MachineAlwaysGoesOn : Prop := ∀ s : State, s.Inv → s.GoesOn

/-- R179 (marked derived): the window after any number of rotations. -/
def Obligations.WindowAfterRotations : Prop :=
  ∀ (depth : Nat) (kl hs : List (List Nibble)), kl.length = depth →
    (hs.foldl (fun window h => rotate depth h window) kl).length = depth ∧
    ∀ l, l < depth →
      (hs.foldl (fun window h => rotate depth h window) kl)[l]? =
        if l < hs.length then hs[hs.length - 1 - l]? else kl[l - hs.length]?

/-! ### The host -/

/-- R230: issued at the port and stepped, a list of commands does what folding it through the hardware does
(the port is log entry 1). -/
def Obligations.IssuedCommandsRunInOrder : Prop :=
  ∀ (cmds : List Instr) (s : State), s.seq = none → s.inputs = [] → (∀ i ∈ cmds, i.isKeyOp = false) →
    runSteps cmds.length (issue cmds s) = runCommands cmds s

/-- R258 (marked derived): the commands one `absorb` of `L` bytes issues on a fresh host, and the host's memory after it. -/
def Obligations.AbsorbCommandTrace : Prop :=
  (∀ h : HostMem, absorb [] h = ([], h)) ∧
  ∀ m : List Byte, m ≠ [] →
    (absorb m HostMem.reset).1.length = m.length / 32 + 1 ∧
    (∀ k, k < m.length / 32 → ∃ c : Chunk, (absorb m HostMem.reset).1[k]? = some (.procPush c) ∧
      ∀ j, j < 32 → c.toList[j]? = m[32 * k + j]?) ∧
    (∃ c : Chunk, (absorb m HostMem.reset).1[m.length / 32]? = some (.procFin c) ∧
      ∀ j, j < 32 → c.toList[j]? = some (m.getD (32 * (m.length / 32) + j) 0x41#8)) ∧
    (absorb m HostMem.reset).2 = ⟨m.drop (32 * (m.length / 32)), m.length⟩

/-- L11 (R257): splitting the argument of `absorb` changes neither the final state (but for the unspecified `x`)
nor the host's memory. -/
def Obligations.SplitAbsorbSameResult : Prop :=
  ∀ (s : State) (h : HostMem) (a b : List Byte), s.valid = true → s.seq = none → a ≠ [] → b ≠ [] →
    ∃ t t', runCommands ((absorb a h).1 ++ (absorb b (absorb a h).2).1) s = .next t ∧
      runCommands (absorb (a ++ b) h).1 s = .next t' ∧
      { t' with x := t.x, draws := t.draws } = t ∧ (absorb b (absorb a h).2).2 = (absorb (a ++ b) h).2

/-- L12 (R256): a short message and the same message with one more byte `0x41` issue the same commands. -/
def Obligations.PaddingCollision : Prop :=
  ∀ m : List Byte, m ≠ [] → m.length + 1 < 32 →
    (absorb (m ++ [0x41#8]) HostMem.reset).1 = (absorb m HostMem.reset).1

/-- R254, R228 (scenario S4): the digest of the empty message is 32 zero bytes, in both modes. -/
def Obligations.EmptyMessageDigestIsZero : Prop :=
  ∀ (s : State) (mode : Mode), s.seq = none → 1 ≤ s.cfg.depth → s.cfg.size = 256 →
    hashOf mode [] s = some (List.replicate 32 0#8)

/-- R259 (digit order K1, log entry 18): the digits of `hexDigest()` after `0x` are the nibbles of `LDN`, 66
characters in all. -/
def Obligations.HexDigestPrintsResultRegister : Prop :=
  ∀ s : State, s.Inv → s.valid = true → s.seq = none →
    ∃ d, digest s = some d ∧ hexDigest d = '0' :: 'x' :: s.ldn.map hexDigit ∧ (hexDigest d).length = 66
end

