-- ==== Sys2Proof/Laws/Decode.lean ====
section
/-! SUPPORT. The small laws of the decoder and the encoder. -/

namespace Sys2Proof

@[simp] theorem gateOfType_typeOfGate (gate : Gate) : gateOfType (typeOfGate gate) = gate := by
  cases gate <;> rfl

@[simp] theorem typeOfGate_gateOfType (gt : BitVec 2) : typeOfGate (gateOfType gt) = gt := by
  revert gt; decide

@[simp] theorem gateField_s1_keyOfS1 (gate : Gate) (gt2 : BitVec 2) :
    gateField .s1 (keyOfS1 gate gt2) = typeOfGate gate := by
  cases gate <;> revert gt2 <;> decide

@[simp] theorem gateField_s2_keyOfS1 (gate : Gate) (gt2 : BitVec 2) :
    gateField .s2 (keyOfS1 gate gt2) = gt2 := by
  cases gate <;> revert gt2 <;> decide

@[simp] theorem gateField_s2_keyOfS2 (gate : Gate) (gt1 : BitVec 2) :
    gateField .s2 (keyOfS2 gate gt1) = typeOfGate gate := by
  cases gate <;> revert gt1 <;> decide

@[simp] theorem gateField_s1_keyOfS2 (gate : Gate) (gt1 : BitVec 2) :
    gateField .s1 (keyOfS2 gate gt1) = gt1 := by
  cases gate <;> revert gt1 <;> decide

@[simp] theorem toNat_keyByte_lt (k : Nibble) : (keyByte k).toNat < 16 := by
  revert k; decide

@[simp] theorem setWidth_keyByte (k : Nibble) : (keyByte k).setWidth 4 = k := by
  revert k; decide

/-- A key nibble in its byte decodes as the nibble does. -/
theorem decode_key_keyByte (layer : Nat) (phase : Phase) (g : Nat) (k : Nibble) :
    decode (.key layer phase g) [keyByte k] = .ok (decodeKey layer phase g k) := by
  simp only [decode, toNat_keyByte_lt, if_true, setWidth_keyByte]

/-- A chunk after its code decodes as that chunk. -/
theorem decodeChunk_toList (make : Chunk → Instr) (c : Chunk) : decodeChunk make c.toList = .ok (make c) := by
  unfold decodeChunk
  rw [dif_pos (Vector.length_toList)]
  rfl

end Sys2Proof
end

