-- ==== Sys2Proof/Laws/Operands.lean ====
section
/-! SUPPORT. The laws of wire reads and writes and of wire addressing. -/

namespace Sys2Proof.Machine

theorem getLsbD_putBit (v : Nibble) (p q : Nat) (b : Bool) (hp : p < 4) (hq : q < 4) :
    (putBit v p b).getLsbD q = if q = p then b else v.getLsbD q := by
  have hp' : p = 0 ∨ p = 1 ∨ p = 2 ∨ p = 3 := by omega
  have hq' : q = 0 ∨ q = 1 ∨ q = 2 ∨ q = 3 := by omega
  revert v b
  rcases hp' with rfl | rfl | rfl | rfl <;> rcases hq' with rfl | rfl | rfl | rfl <;> decide

@[simp] theorem length_writeWire (x : List Nibble) (w : Nat) (b : Bool) :
    (writeWire x w b).length = x.length := by simp [writeWire]

/-- R53 in terms of wires: a write sets its wire and no other. -/
theorem readWire_writeWire (x : List Nibble) (w w' : Nat) (b : Bool) (h : w / 4 < x.length) :
    readWire (writeWire x w b) w' = if w' = w then b else readWire x w' := by
  unfold readWire writeWire
  by_cases hn : w' / 4 = w / 4
  · have hget : (x.set (w / 4) (putBit (x.getD (w / 4) 0#4) (w % 4) b)).getD (w' / 4) 0#4
        = putBit (x.getD (w / 4) 0#4) (w % 4) b := by
      simp [List.getD_eq_getElem?_getD, hn, h]
    rw [hget, getLsbD_putBit _ _ _ _ (Nat.mod_lt _ (by decide)) (Nat.mod_lt _ (by decide)), hn]
    by_cases hw : w' = w
    · simp [hw]
    · have hm : w' % 4 ≠ w % 4 := by omega
      simp [hw, hm]
  · have hw : w' ≠ w := fun e => hn (by rw [e])
    have hget : (x.set (w / 4) (putBit (x.getD (w / 4) 0#4) (w % 4) b)).getD (w' / 4) 0#4
        = x.getD (w' / 4) 0#4 := by
      simp [List.getD_eq_getElem?_getD, Ne.symm hn]
    rw [hget, if_neg hw]

/-- Two states of one length with the same wires are equal (R22: the two views alias exactly). -/
theorem eq_of_readWire {x y : List Nibble} (hl : x.length = y.length)
    (h : ∀ w, w < 4 * x.length → readWire x w = readWire y w) : x = y := by
  apply List.ext_getElem hl
  intro i hi hi'
  apply BitVec.eq_of_getLsbD_eq
  intro p hp
  have hw := h (4 * i + p) (by omega)
  have hd : (4 * i + p) / 4 = i := by omega
  have hm : (4 * i + p) % 4 = p := by omega
  simpa [readWire, hd, hm, List.getD_eq_getElem?_getD, hi, hi'] using hw

/-- R55: every wire index is in range. -/
theorem wire_lt {size : Nat} (h : 0 < size) (layer : Nat) (sub : Sublayer) (g k : Nat) :
    wire size layer sub g k < size := Nat.mod_lt _ h

/-- The nibble of a wire in range. -/
theorem wire_div_lt {size : Nat} (h : 0 < size) (h4 : size % 4 = 0) (layer : Nat) (sub : Sublayer) (g k : Nat) :
    wire size layer sub g k / 4 < size / 4 := by
  have := wire_lt h layer sub g k
  omega

end Sys2Proof.Machine
end

