-- ==== Sys2Proof/Laws/State.lean ====
section
/-! SUPPORT. What each named update of State does to each field: one lemma per field per update. -/

namespace Sys2Proof.Machine

@[simp] theorem respond_cfg (out : List Byte) (s : State) : (respond out s).cfg = s.cfg := rfl
@[simp] theorem respond_valid (out : List Byte) (s : State) : (respond out s).valid = s.valid := rfl
@[simp] theorem respond_kl (out : List Byte) (s : State) : (respond out s).kl = s.kl := rfl
@[simp] theorem respond_ldn (out : List Byte) (s : State) : (respond out s).ldn = s.ldn := rfl
@[simp] theorem respond_x (out : List Byte) (s : State) : (respond out s).x = s.x := rfl
@[simp] theorem respond_seq (out : List Byte) (s : State) : (respond out s).seq = s.seq := rfl
@[simp] theorem respond_response (out : List Byte) (s : State) : (respond out s).response = .ok out := rfl
@[simp] theorem respond_inputs (out : List Byte) (s : State) : (respond out s).inputs = s.inputs := rfl
@[simp] theorem respond_draws (out : List Byte) (s : State) : (respond out s).draws = s.draws := rfl

@[simp] theorem releaseX_cfg (s : State) : (releaseX s).cfg = s.cfg := rfl
@[simp] theorem releaseX_valid (s : State) : (releaseX s).valid = s.valid := rfl
@[simp] theorem releaseX_kl (s : State) : (releaseX s).kl = s.kl := rfl
@[simp] theorem releaseX_ldn (s : State) : (releaseX s).ldn = s.ldn := rfl
@[simp] theorem releaseX_x (s : State) : (releaseX s).x = freeNibbles s.cfg.n s.draws := rfl
@[simp] theorem releaseX_seq (s : State) : (releaseX s).seq = s.seq := rfl
@[simp] theorem releaseX_response (s : State) : (releaseX s).response = s.response := rfl
@[simp] theorem releaseX_inputs (s : State) : (releaseX s).inputs = s.inputs := rfl
@[simp] theorem releaseX_draws (s : State) : (releaseX s).draws = s.draws + 1 := rfl

@[simp] theorem finishBlock_push_cfg (h : List Nibble) (s : State) : (finishBlock .push h s).cfg = s.cfg := rfl
@[simp] theorem finishBlock_push_valid (h : List Nibble) (s : State) : (finishBlock .push h s).valid = s.valid := rfl
@[simp] theorem finishBlock_push_kl (h : List Nibble) (s : State) : (finishBlock .push h s).kl = rotate s.cfg.depth h s.kl := rfl
@[simp] theorem finishBlock_push_ldn (h : List Nibble) (s : State) : (finishBlock .push h s).ldn = s.ldn := rfl
@[simp] theorem finishBlock_push_x (h : List Nibble) (s : State) : (finishBlock .push h s).x = freeNibbles s.cfg.n s.draws := rfl
@[simp] theorem finishBlock_push_seq (h : List Nibble) (s : State) : (finishBlock .push h s).seq = none := rfl
@[simp] theorem finishBlock_push_response (h : List Nibble) (s : State) : (finishBlock .push h s).response = .ok [] := rfl
@[simp] theorem finishBlock_push_inputs (h : List Nibble) (s : State) : (finishBlock .push h s).inputs = s.inputs := rfl
@[simp] theorem finishBlock_push_draws (h : List Nibble) (s : State) : (finishBlock .push h s).draws = s.draws + 1 := rfl

@[simp] theorem finishBlock_fin_cfg (h : List Nibble) (s : State) : (finishBlock .fin h s).cfg = s.cfg := rfl
@[simp] theorem finishBlock_fin_valid (h : List Nibble) (s : State) : (finishBlock .fin h s).valid = s.valid := rfl
@[simp] theorem finishBlock_fin_kl (h : List Nibble) (s : State) : (finishBlock .fin h s).kl = s.kl := rfl
@[simp] theorem finishBlock_fin_ldn (h : List Nibble) (s : State) : (finishBlock .fin h s).ldn = h := rfl
@[simp] theorem finishBlock_fin_x (h : List Nibble) (s : State) : (finishBlock .fin h s).x = freeNibbles s.cfg.n s.draws := rfl
@[simp] theorem finishBlock_fin_seq (h : List Nibble) (s : State) : (finishBlock .fin h s).seq = none := rfl
@[simp] theorem finishBlock_fin_response (h : List Nibble) (s : State) : (finishBlock .fin h s).response = .ok [] := rfl
@[simp] theorem finishBlock_fin_inputs (h : List Nibble) (s : State) : (finishBlock .fin h s).inputs = s.inputs := rfl
@[simp] theorem finishBlock_fin_draws (h : List Nibble) (s : State) : (finishBlock .fin h s).draws = s.draws + 1 := rfl

@[simp] theorem beginBlock_cfg (dest : Dest) (c : Chunk) (s : State) : (beginBlock dest c s).cfg = s.cfg := rfl
@[simp] theorem beginBlock_valid (dest : Dest) (c : Chunk) (s : State) : (beginBlock dest c s).valid = s.valid := rfl
@[simp] theorem beginBlock_kl (dest : Dest) (c : Chunk) (s : State) : (beginBlock dest c s).kl = s.kl := rfl
@[simp] theorem beginBlock_ldn (dest : Dest) (c : Chunk) (s : State) : (beginBlock dest c s).ldn = s.ldn := rfl
@[simp] theorem beginBlock_x (dest : Dest) (c : Chunk) (s : State) : (beginBlock dest c s).x = unpack c := rfl
@[simp] theorem beginBlock_seq (dest : Dest) (c : Chunk) (s : State) : (beginBlock dest c s).seq = some ⟨0, .mix, 0, dest⟩ := rfl
@[simp] theorem beginBlock_response (dest : Dest) (c : Chunk) (s : State) : (beginBlock dest c s).response = s.response := rfl
@[simp] theorem beginBlock_inputs (dest : Dest) (c : Chunk) (s : State) : (beginBlock dest c s).inputs = s.inputs := rfl
@[simp] theorem beginBlock_draws (dest : Dest) (c : Chunk) (s : State) : (beginBlock dest c s).draws = s.draws := rfl

@[simp] theorem losePower_cfg (s : State) : (losePower s).cfg = s.cfg := rfl
@[simp] theorem losePower_valid (s : State) : (losePower s).valid = false := rfl
@[simp] theorem losePower_kl (s : State) : (losePower s).kl = (List.range s.cfg.depth).map fun l => freeNibbles s.cfg.n (s.draws + 2 + l) := rfl
@[simp] theorem losePower_ldn (s : State) : (losePower s).ldn = freeNibbles s.cfg.n (s.draws + 1) := rfl
@[simp] theorem losePower_x (s : State) : (losePower s).x = freeNibbles s.cfg.n s.draws := rfl
@[simp] theorem losePower_seq (s : State) : (losePower s).seq = none := rfl
@[simp] theorem losePower_response (s : State) : (losePower s).response = .none := rfl
@[simp] theorem losePower_inputs (s : State) : (losePower s).inputs = s.inputs.tail := rfl
@[simp] theorem losePower_draws (s : State) : (losePower s).draws = s.draws + 2 + s.cfg.depth := rfl

@[simp] theorem takeWord_command_cfg (s : State) : (takeWord .command s).cfg = s.cfg := rfl
@[simp] theorem takeWord_command_valid (s : State) : (takeWord .command s).valid = s.valid := rfl
@[simp] theorem takeWord_command_kl (s : State) : (takeWord .command s).kl = s.kl := rfl
@[simp] theorem takeWord_command_ldn (s : State) : (takeWord .command s).ldn = s.ldn := rfl
@[simp] theorem takeWord_command_x (s : State) : (takeWord .command s).x = s.x := rfl
@[simp] theorem takeWord_command_seq (s : State) : (takeWord .command s).seq = s.seq := rfl
@[simp] theorem takeWord_command_response (s : State) : (takeWord .command s).response = s.response := rfl
@[simp] theorem takeWord_command_inputs (s : State) : (takeWord .command s).inputs = s.inputs.tail := rfl
@[simp] theorem takeWord_command_draws (s : State) : (takeWord .command s).draws = s.draws := rfl

@[simp] theorem takeWord_key (layer : Nat) (phase : Phase) (g : Nat) (s : State) :
    takeWord (.key layer phase g) s = s := rfl

@[simp] theorem retire_command (s : State) : retire .command s = s := rfl

@[simp] theorem retire_key (layer : Nat) (phase : Phase) (g : Nat) (s : State) :
    retire (.key layer phase g) s = advance s := rfl

theorem finishBlock_cfg (dest : Dest) (h : List Nibble) (s : State) :
    (finishBlock dest h s).cfg = s.cfg := by cases dest <;> rfl

theorem finishBlock_valid (dest : Dest) (h : List Nibble) (s : State) :
    (finishBlock dest h s).valid = s.valid := by cases dest <;> rfl

theorem finishBlock_seq (dest : Dest) (h : List Nibble) (s : State) :
    (finishBlock dest h s).seq = none := by cases dest <;> rfl

theorem finishBlock_response (dest : Dest) (h : List Nibble) (s : State) :
    (finishBlock dest h s).response = .ok [] := by cases dest <;> rfl

theorem finishBlock_inputs (dest : Dest) (h : List Nibble) (s : State) :
    (finishBlock dest h s).inputs = s.inputs := by cases dest <;> rfl

theorem finishBlock_draws (dest : Dest) (h : List Nibble) (s : State) :
    (finishBlock dest h s).draws = s.draws + 1 := by cases dest <;> rfl

theorem finishBlock_x (dest : Dest) (h : List Nibble) (s : State) :
    (finishBlock dest h s).x = freeNibbles s.cfg.n s.draws := by cases dest <;> rfl

end Sys2Proof.Machine
end

