-- ==== Sys2Proof/Laws/Ops.lean ====
section
/-! SUPPORT. What each shared operation can do: lengths, the window's shape, the guards and the sequencer. -/

namespace Sys2Proof.Machine

/-! ### Lengths -/

@[simp] theorem length_applyGate (gate : Gate) (w0 w1 w2 : Nat) (x : List Nibble) :
    (applyGate gate w0 w1 w2 x).length = x.length := by
  cases gate <;> simp only [applyGate, tofR, tofM, freR, freM] <;> split <;> simp

@[simp] theorem length_gateStep (size layer : Nat) (sub : Sublayer) (gate : Gate) (g : Nat) (x : List Nibble) :
    (gateStep size layer sub gate g x).length = x.length := by simp [gateStep]

@[simp] theorem length_mixNibble (g : Nat) (k : Nibble) (x : List Nibble) :
    (mixNibble g k x).length = x.length := by simp [mixNibble]

@[simp] theorem length_keyGate (size layer : Nat) (sub : Sublayer) (K x : List Nibble) (g : Nat) :
    (keyGate size layer sub K x g).length = x.length := by simp [keyGate]

/-- A fold of operations that keep the length keeps the length. -/
theorem length_foldl {β : Type} (f : List Nibble → β → List Nibble) (hf : ∀ x b, (f x b).length = x.length)
    (l : List β) (x : List Nibble) : (l.foldl f x).length = x.length := by
  induction l generalizing x with
  | nil => rfl
  | cons b l ih => rw [List.foldl_cons, ih, hf]

@[simp] theorem length_mixPhase (size : Nat) (K x : List Nibble) : (mixPhase size K x).length = x.length :=
  length_foldl _ (fun _ _ => length_mixNibble _ _ _) _ _

@[simp] theorem length_sublayer (size layer : Nat) (sub : Sublayer) (K x : List Nibble) :
    (sublayer size layer sub K x).length = x.length :=
  length_foldl _ (fun _ _ => length_keyGate _ _ _ _ _ _) _ _

@[simp] theorem length_applyLayer (size layer : Nat) (K x : List Nibble) :
    (applyLayer size layer K x).length = x.length := by simp [applyLayer]

@[simp] theorem length_permute (size depth : Nat) (kl : List (List Nibble)) (x : List Nibble) :
    (permute size depth kl x).length = x.length :=
  length_foldl _ (fun _ _ => length_applyLayer _ _ _ _) _ _

theorem length_flatMap_pair (f g : Byte → Nibble) (l : List Byte) :
    (l.flatMap fun b => [f b, g b]).length = 2 * l.length := by
  induction l with
  | nil => rfl
  | cons b l ih => simp; omega

@[simp] theorem length_unpack (c : Chunk) : (unpack c).length = 64 := by
  rw [unpack, length_flatMap_pair, Vector.length_toList]

@[simp] theorem length_pack (size : Nat) (n : List Nibble) : (pack size n).length = size / 8 := by simp [pack]

@[simp] theorem length_processBlock (size depth : Nat) (kl : List (List Nibble)) (c : Chunk) :
    (processBlock size depth kl c).length = 64 := by simp [processBlock]

@[simp] theorem length_stdLayer (rom : Vector (BitVec 64) 64) (n i : Nat) : (stdLayer rom n i).length = n := by
  unfold stdLayer; split <;> simp

@[simp] theorem length_rndLayer (prng : Nat → Nibble) (n i : Nat) : (rndLayer prng n i).length = n := by
  simp [rndLayer]

@[simp] theorem length_scheduleLayer (mode : Mode) (cfg : Params) (i : Nat) :
    (scheduleLayer mode cfg i).length = cfg.n := by cases mode <;> simp [scheduleLayer]

@[simp] theorem length_freeNibbles (n t : Nat) : (freeNibbles n t).length = n := by simp [freeNibbles]

/-! ### The shape of the window is kept by its two writers -/

@[simp] theorem length_initialWindow (mode : Mode) (cfg : Params) :
    (initialWindow mode cfg).length = cfg.depth := by simp [initialWindow]

theorem initialWindow_shaped (mode : Mode) (cfg : Params) : ∀ K ∈ initialWindow mode cfg, K.length = cfg.n := by
  simp [initialWindow]

theorem getElem?_initialWindow (mode : Mode) (cfg : Params) {i : Nat} (h : i < cfg.depth) :
    (initialWindow mode cfg)[i]? = some (scheduleLayer mode cfg i) := by simp [initialWindow, h]

theorem length_rotate {depth : Nat} {kl : List (List Nibble)} (h : List Nibble) (hl : kl.length = depth) :
    (rotate depth h kl).length = depth := by simp [rotate]; omega

theorem rotate_shaped {depth n : Nat} {h : List Nibble} {kl : List (List Nibble)} (hh : h.length = n)
    (hk : ∀ K ∈ kl, K.length = n) : ∀ K ∈ rotate depth h kl, K.length = n := by
  intro K hK
  rcases List.mem_cons.mp (List.mem_of_mem_take hK) with rfl | hm
  · exact hh
  · exact hk K hm

/-! ### Guards, checks and exceptions -/

@[simp] theorem whenIdle_idle {s : State} (h : s.seq = none) (o : Host.Outcome State Fault Refusal) :
    whenIdle s o = o := by simp [whenIdle, h]

@[simp] theorem whenIdle_running {s : State} {r : BlockRun} (h : s.seq = some r)
    (o : Host.Outcome State Fault Refusal) : whenIdle s o = .refused .commandWhileRunning := by
  simp [whenIdle, h]

theorem whenIdle_next {s t : State} {o : Host.Outcome State Fault Refusal} (h : whenIdle s o = .next t) :
    s.seq = none ∧ o = .next t := by
  unfold whenIdle at h
  split at h
  · exact ⟨‹_›, h⟩
  · cases h

@[simp] theorem whenValid_valid {s : State} (h : s.valid = true) (o : Host.Outcome State Fault Refusal) :
    whenValid s o = o := by simp [whenValid, h]

@[simp] theorem whenValid_fresh {s : State} (h : s.valid = false) (o : Host.Outcome State Fault Refusal) :
    whenValid s o = raise .notInitialised s := by simp [whenValid, h]

theorem whenValid_next {s t : State} {o : Host.Outcome State Fault Refusal} (h : whenValid s o = .next t) :
    (s.valid = true ∧ o = .next t) ∨ (s.valid = false ∧ t = { s with response := .fault .notInitialised }) := by
  cases hv : s.valid with
  | true => exact .inl ⟨rfl, by simpa [hv] using h⟩
  | false => exact .inr ⟨rfl, by simpa [hv, raise] using h.symm⟩

/-- The configuration is one the commands exist for exactly when no check fails (R222). -/
theorem configCheck_none (cfg : Params) : configCheck cfg = none ↔ 1 ≤ cfg.depth ∧ cfg.size = 256 := by
  unfold configCheck
  split
  · simp; omega
  · split
    · simp; omega
    · split
      · simp_all
      · simp; omega

/-- The state a successful `INIT` leaves. -/
def initialised (mode : Mode) (s : State) : State :=
  respond [] (releaseX
    { s with valid := true, kl := initialWindow mode s.cfg, ldn := List.replicate s.cfg.n 0#4 })

theorem initialise_next {mode : Mode} {s t : State} (h : initialise mode s = .next t) :
    (configCheck s.cfg = none ∧ t = initialised mode s) ∨
      (∃ e, configCheck s.cfg = some e ∧ t = { s with response := .fault e }) := by
  unfold initialise at h
  split at h
  · next e he => exact .inr ⟨e, he, by simpa [raise] using h.symm⟩
  · next he => exact .inl ⟨he, by simpa [initialised] using h.symm⟩

theorem initialise_ok (mode : Mode) {s : State} (hd : 1 ≤ s.cfg.depth) (hs : s.cfg.size = 256) :
    initialise mode s = .next (initialised mode s) := by
  have hc := (configCheck_none s.cfg).mpr ⟨hd, hs⟩
  simp [initialise, hc, initialised]

/-- A loss of power leaves arrays of the right lengths. -/
theorem losePower_shaped (s : State) : (losePower s).Shaped := by
  refine ⟨by simp, ?_, by simp, by simp⟩
  simp [losePower]

/-! ### What a step fetches -/

theorem fetch_powerLoss {s : State} {rest : List Input} (hq : s.inputs = .powerLoss :: rest) :
    fetch s = .powerLoss := by simp [fetch, hq]

theorem fetch_waiting {s : State} (hs : s.seq = none) (hq : s.inputs = []) : fetch s = .waiting := by
  simp [fetch, hs, hq]

theorem fetch_command {s : State} {bytes : List Byte} {rest : List Input} (hs : s.seq = none)
    (hq : s.inputs = .command bytes :: rest) : fetch s = .word .command bytes := by simp [fetch, hs, hq]

theorem fetch_running {s : State} {r : BlockRun} (hr : s.seq = some r) (hp : s.Powered) :
    fetch s = fetchKey s.kl r := by
  rcases hq : s.inputs with _ | ⟨_ | _, rest⟩
  · simp [fetch, hr, hq]
  · simp [fetch, hr, hq]
  · exact absurd (by rw [hq]; rfl) hp

/-! ### The sequencer -/

theorem nextPosition_inRange {n depth : Nat} {r r' : BlockRun} (hl : r.layer < depth) (hg : r.g < n)
    (h : nextPosition n depth r = some r') : r'.layer < depth ∧ r'.g < n ∧ r'.dest = r.dest := by
  unfold nextPosition at h
  split at h
  · cases h; exact ⟨hl, by assumption, rfl⟩
  · split at h
    · cases h; exact ⟨hl, by simp; omega, rfl⟩
    · cases h; exact ⟨hl, by simp; omega, rfl⟩
    · split at h
      · cases h; exact ⟨by assumption, by simp; omega, rfl⟩
      · cases h

/-- What advancing does: the next position, or the end of the block run. -/
theorem advance_cases {s : State} {r : BlockRun} (h : s.seq = some r) :
    (∃ r', nextPosition s.cfg.n s.cfg.depth r = some r' ∧ advance s = { s with seq := some r' }) ∨
      (nextPosition s.cfg.n s.cfg.depth r = none ∧ advance s = finishBlock r.dest s.x s) := by
  unfold advance
  rw [h]
  cases hn : nextPosition s.cfg.n s.cfg.depth r with
  | none => exact .inr ⟨rfl, by simp [hn]⟩
  | some r' => exact .inl ⟨r', rfl, by simp [hn]⟩

/-- Inside the window there is a key nibble. -/
theorem keyNibble?_isSome {kl : List (List Nibble)} {n layer g : Nat} (hk : ∀ K ∈ kl, K.length = n)
    (hl : layer < kl.length) (hg : g < n) :
    keyNibble? kl layer g = some ((kl.getD layer []).getD g 0#4) := by
  have hK : (kl[layer]).length = n := hk _ (List.getElem_mem hl)
  simp [keyNibble?, List.getD_eq_getElem?_getD, hl, hK, hg]

end Sys2Proof.Machine
end

