-- ==== Sys2Proof/Laws/Gates.lean ====
section
/-! SUPPORT. What a gate does to its three wires, said once, and the closed form of a wire index. -/

namespace Sys2Proof.Machine

/-- The three outputs of a gate on `v1 v2 v3`. -/
def gateOut (gate : Gate) (v1 v2 v3 : Bool) : Bool × Bool × Bool :=
  match gate with
  | .tofR => (v1, v2, v3 ^^ (v1 && v2))
  | .tofM => (v1 ^^ (v2 && v3), v2, v3)
  | .freR => (v1, if v1 then (v3, v2) else (v2, v3))
  | .freM => if v3 then (v2, v1, v3) else (v1, v2, v3)

/-- A gate on three different wires in range acts on them by `gateOut` and on nothing else. -/
theorem readWire_applyGate (gate : Gate) {w0 w1 w2 : Nat} {x : List Nibble}
    (h0 : w0 / 4 < x.length) (h1 : w1 / 4 < x.length) (h2 : w2 / 4 < x.length)
    (h01 : w0 ≠ w1) (h02 : w0 ≠ w2) (h12 : w1 ≠ w2) (v : Nat) :
    readWire (applyGate gate w0 w1 w2 x) v =
      if v = w0 then (gateOut gate (readWire x w0) (readWire x w1) (readWire x w2)).1
      else if v = w1 then (gateOut gate (readWire x w0) (readWire x w1) (readWire x w2)).2.1
      else if v = w2 then (gateOut gate (readWire x w0) (readWire x w1) (readWire x w2)).2.2
      else readWire x v := by
  have hw : ∀ (y : List Nibble) (w v : Nat) (b : Bool), y.length = x.length → w / 4 < x.length →
      readWire (writeWire y w b) v = if v = w then b else readWire y v :=
    fun y w v b hy hl => readWire_writeWire y w v b (by rw [hy]; exact hl)
  by_cases e0 : v = w0
  · subst e0
    cases gate <;> cases a : readWire x v <;> cases b : readWire x w1 <;> cases c : readWire x w2 <;>
      simp [applyGate, tofR, tofM, freR, freM, gateFires, gateOut, a, b, c, hw, h0, h1, h2, h01, h02]
  · by_cases e1 : v = w1
    · subst e1
      cases gate <;> cases a : readWire x w0 <;> cases b : readWire x v <;> cases c : readWire x w2 <;>
        simp [applyGate, tofR, tofM, freR, freM, gateFires, gateOut, a, b, c, hw, h0, h1, h2, e0, h12]
    · by_cases e2 : v = w2
      · subst e2
        cases gate <;> cases a : readWire x w0 <;> cases b : readWire x w1 <;> cases c : readWire x v <;>
          simp [applyGate, tofR, tofM, freR, freM, gateFires, gateOut, a, b, c, hw, h0, h1, h2, e0, e1]
      · cases gate <;> cases a : readWire x w0 <;> cases b : readWire x w1 <;> cases c : readWire x w2 <;>
          simp [applyGate, tofR, tofM, freR, freM, gateFires, a, b, c, hw, h0, h1, h2, e0, e1, e2]

theorem mod_of_lt_double {a m : Nat} (h : a < 2 * m) : a % m = if a < m then a else a - m := by
  split
  · exact Nat.mod_eq_of_lt ‹_›
  · rw [Nat.mod_eq_sub_mod (by omega), Nat.mod_eq_of_lt (by omega)]

/-- A wire index without the reduction (R111): at most one turn of the ring is taken off. -/
theorem wire_eq {size : Nat} (hs : legalSize size) (layer : Nat) (sub : Sublayer) {g k : Nat} (hg : g < size / 4)
    (hk : k < 3) :
    wire size layer sub g k =
      if g * 4 + layer % 2 + k + subOffset sub < size then g * 4 + layer % 2 + k + subOffset sub
      else g * 4 + layer % 2 + k + subOffset sub - size := by
  have ho : subOffset sub ≤ 2 := by cases sub <;> simp [subOffset]
  have hp := hs.1
  have h8 := hs.2
  exact mod_of_lt_double (by omega)

/-- The nibble of a gate's wire lies in a state of `N` nibbles, whatever the gate index. -/
theorem wire_div_lt_length {size : Nat} (hs : legalSize size) {x : List Nibble} (hx : x.length = size / 4)
    (layer : Nat) (sub : Sublayer) (g k : Nat) : wire size layer sub g k / 4 < x.length := by
  have h8 := hs.2
  rw [hx]
  exact wire_div_lt hs.1 (by omega) _ _ _ _

end Sys2Proof.Machine
end

