-- ==== Sys2Proof/Laws/PerInstr.lean ====
section
/-! SUPPORT. Family `EncodedShape`: where the encoder places an instruction and how many bytes it writes. A
key-nibble operation is one byte below 16 in the key window; a command is one byte below 5 at the port, alone
or with the 32 bytes of a chunk (R80, R81, R89). -/

namespace Sys2Proof.Laws

/-- The shape of the encoded word of an instruction. -/
def EncodedShape.Statement (i : Instr) : Prop :=
  (i.isKeyOp = true ∧ ∃ layer phase g b, encode i = (.key layer phase g, [b]) ∧ b.toNat < 16) ∨
  (i.isKeyOp = false ∧ ∃ b arg, encode i = (.command, b :: arg) ∧ b.toNat < 5 ∧
    (arg.length = 0 ∨ arg.length = 32))

theorem EncodedShape.mix (layer g : Nat) (k : Nibble) : EncodedShape.Statement (.mix layer g k) :=
  .inl ⟨rfl, _, _, _, _, rfl, toNat_keyByte_lt _⟩

theorem EncodedShape.s1TofR (layer g : Nat) (gt2 : BitVec 2) : EncodedShape.Statement (.s1TofR layer g gt2) :=
  .inl ⟨rfl, _, _, _, _, rfl, toNat_keyByte_lt _⟩

theorem EncodedShape.s1FreR (layer g : Nat) (gt2 : BitVec 2) : EncodedShape.Statement (.s1FreR layer g gt2) :=
  .inl ⟨rfl, _, _, _, _, rfl, toNat_keyByte_lt _⟩

theorem EncodedShape.s1TofM (layer g : Nat) (gt2 : BitVec 2) : EncodedShape.Statement (.s1TofM layer g gt2) :=
  .inl ⟨rfl, _, _, _, _, rfl, toNat_keyByte_lt _⟩

theorem EncodedShape.s1FreM (layer g : Nat) (gt2 : BitVec 2) : EncodedShape.Statement (.s1FreM layer g gt2) :=
  .inl ⟨rfl, _, _, _, _, rfl, toNat_keyByte_lt _⟩

theorem EncodedShape.s2TofR (layer g : Nat) (gt1 : BitVec 2) : EncodedShape.Statement (.s2TofR layer g gt1) :=
  .inl ⟨rfl, _, _, _, _, rfl, toNat_keyByte_lt _⟩

theorem EncodedShape.s2FreR (layer g : Nat) (gt1 : BitVec 2) : EncodedShape.Statement (.s2FreR layer g gt1) :=
  .inl ⟨rfl, _, _, _, _, rfl, toNat_keyByte_lt _⟩

theorem EncodedShape.s2TofM (layer g : Nat) (gt1 : BitVec 2) : EncodedShape.Statement (.s2TofM layer g gt1) :=
  .inl ⟨rfl, _, _, _, _, rfl, toNat_keyByte_lt _⟩

theorem EncodedShape.s2FreM (layer g : Nat) (gt1 : BitVec 2) : EncodedShape.Statement (.s2FreM layer g gt1) :=
  .inl ⟨rfl, _, _, _, _, rfl, toNat_keyByte_lt _⟩

theorem EncodedShape.initStd : EncodedShape.Statement .initStd :=
  .inr ⟨rfl, _, _, rfl, by decide, .inl rfl⟩

theorem EncodedShape.initRnd : EncodedShape.Statement .initRnd :=
  .inr ⟨rfl, _, _, rfl, by decide, .inl rfl⟩

theorem EncodedShape.procPush (chunk : Chunk) : EncodedShape.Statement (.procPush chunk) :=
  .inr ⟨rfl, _, _, rfl, by decide, .inr Vector.length_toList⟩

theorem EncodedShape.procFin (chunk : Chunk) : EncodedShape.Statement (.procFin chunk) :=
  .inr ⟨rfl, _, _, rfl, by decide, .inr Vector.length_toList⟩

theorem EncodedShape.rdDig : EncodedShape.Statement .rdDig :=
  .inr ⟨rfl, _, _, rfl, by decide, .inl rfl⟩

end Sys2Proof.Laws
end

