-- ==== Sys2Proof/Laws/Step.lean ====
section
/-! SUPPORT. What an instruction and a step can do, said once. -/

namespace Sys2Proof.Machine

/-- The effect of a key-nibble operation on the working state (the identity on a command). -/
def keyEffect (size : Nat) (i : Instr) (x : List Nibble) : List Nibble :=
  match i with
  | .mix _ g k => mixNibble g k x
  | .s1TofR layer g _ => gateStep size layer .s1 .tofR g x
  | .s1FreR layer g _ => gateStep size layer .s1 .freR g x
  | .s1TofM layer g _ => gateStep size layer .s1 .tofM g x
  | .s1FreM layer g _ => gateStep size layer .s1 .freM g x
  | .s2TofR layer g _ => gateStep size layer .s2 .tofR g x
  | .s2FreR layer g _ => gateStep size layer .s2 .freR g x
  | .s2TofM layer g _ => gateStep size layer .s2 .tofM g x
  | .s2FreM layer g _ => gateStep size layer .s2 .freM g x
  | .initStd => x
  | .initRnd => x
  | .procPush _ => x
  | .procFin _ => x
  | .rdDig => x

theorem exec_keyOp {i : Instr} (h : i.isKeyOp = true) (s : State) :
    exec i s = .next { s with x := keyEffect s.cfg.size i s.x } := by
  cases i <;> first | rfl | simp [Instr.isKeyOp] at h

@[simp] theorem length_keyEffect (size : Nat) (i : Instr) (x : List Nibble) :
    (keyEffect size i x).length = x.length := by cases i <;> simp [keyEffect]

theorem isKeyOp_decodeKey (layer : Nat) (phase : Phase) (g : Nat) (k : Nibble) :
    (decodeKey layer phase g k).isKeyOp = true := by
  cases phase <;> simp only [decodeKey] <;> (try split) <;> rfl

/-- Everything an instruction that answers a next state can have done. -/
theorem exec_next_cases {i : Instr} {s t : State} (h : exec i s = .next t) :
    (i.isKeyOp = true ∧ t = { s with x := keyEffect s.cfg.size i s.x }) ∨
    (i.isKeyOp = false ∧ s.seq = none ∧
      ((∃ e, t = { s with response := .fault e }) ∨
       (∃ mode, i = (match mode with | .standard => .initStd | .random => .initRnd) ∧
          configCheck s.cfg = none ∧ t = initialised mode s) ∨
       (s.valid = true ∧ ∃ chunk dest, i = (match dest with | .push => .procPush chunk | .fin => .procFin chunk) ∧
          t = finishBlock dest (processBlock s.cfg.size s.cfg.depth s.kl chunk) s) ∨
       (s.valid = true ∧ i = .rdDig ∧ t = respond (pack s.cfg.size s.ldn) s))) := by
  by_cases hk : i.isKeyOp = true
  · rw [exec_keyOp hk] at h
    exact .inl ⟨hk, by simpa using h.symm⟩
  · refine .inr ⟨by simpa using hk, ?_⟩
    cases i with
    | initStd =>
      obtain ⟨hs, h⟩ := whenIdle_next h
      refine ⟨hs, ?_⟩
      rcases initialise_next h with ⟨hc, rfl⟩ | ⟨e, -, rfl⟩
      · exact .inr (.inl ⟨.standard, rfl, hc, rfl⟩)
      · exact .inl ⟨e, rfl⟩
    | initRnd =>
      obtain ⟨hs, h⟩ := whenIdle_next h
      refine ⟨hs, ?_⟩
      rcases initialise_next h with ⟨hc, rfl⟩ | ⟨e, -, rfl⟩
      · exact .inr (.inl ⟨.random, rfl, hc, rfl⟩)
      · exact .inl ⟨e, rfl⟩
    | procPush c =>
      obtain ⟨hs, h⟩ := whenIdle_next h
      refine ⟨hs, ?_⟩
      rcases whenValid_next h with ⟨hv, h⟩ | ⟨-, rfl⟩
      · exact .inr (.inr (.inl ⟨hv, c, .push, rfl, by simpa [processChunk] using h.symm⟩))
      · exact .inl ⟨_, rfl⟩
    | procFin c =>
      obtain ⟨hs, h⟩ := whenIdle_next h
      refine ⟨hs, ?_⟩
      rcases whenValid_next h with ⟨hv, h⟩ | ⟨-, rfl⟩
      · exact .inr (.inr (.inl ⟨hv, c, .fin, rfl, by simpa [processChunk] using h.symm⟩))
      · exact .inl ⟨_, rfl⟩
    | rdDig =>
      obtain ⟨hs, h⟩ := whenIdle_next h
      refine ⟨hs, ?_⟩
      rcases whenValid_next h with ⟨hv, h⟩ | ⟨-, rfl⟩
      · exact .inr (.inr (.inr ⟨hv, rfl, by simpa using h.symm⟩))
      · exact .inl ⟨_, rfl⟩
    | _ => exact absurd rfl hk

/-- A step that takes a loss of power. -/
theorem step_powerLoss {s : State} {rest : List Input} (hq : s.inputs = .powerLoss :: rest) :
    step s = .next (losePower s) := by simp [step, fetch_powerLoss hq]

/-- A step with nothing to do. -/
theorem step_waiting {s : State} (hs : s.seq = none) (hq : s.inputs = []) : step s = .next s := by
  simp [step, fetch_waiting hs hq]

/-- A step inside a block run: the key nibble's operation, then the sequencer. -/
theorem step_running {s : State} {r : BlockRun} {k : Nibble} (hr : s.seq = some r) (hp : s.Powered)
    (hk : keyNibble? s.kl r.layer r.g = some k) :
    step s = .next (advance
      { s with x := keyEffect s.cfg.size (decodeKey r.layer r.phase r.g k) s.x }) := by
  simp [step, fetch_running hr hp, fetchKey, hk, decode_key_keyByte, exec_keyOp (isKeyOp_decodeKey _ _ _ _)]

/-- A step from idle with a request: the command, atomically. -/
theorem step_command {s : State} {bytes : List Byte} {rest : List Input} {i : Instr} (hs : s.seq = none)
    (hq : s.inputs = .command bytes :: rest) (hd : decode .command bytes = .ok i) :
    step s = exec i { s with inputs := rest } := by
  have ht : takeWord .command s = { s with inputs := rest } := by simp [takeWord, hq]
  simp only [step, fetch_command hs hq, hd, ht, retire_command]
  generalize exec i { s with inputs := rest } = o
  cases o <;> rfl

/-- The ways a step can go. -/
theorem step_cases (s : State) :
    (∃ rest, s.inputs = .powerLoss :: rest ∧ step s = .next (losePower s)) ∨
    (s.seq = none ∧ s.inputs = [] ∧ step s = .next s) ∨
    (∃ bytes rest, s.seq = none ∧ s.inputs = .command bytes :: rest ∧
      ((∃ why, decode .command bytes = .error why ∧ step s = .refused (.undecodable why)) ∨
       (∃ i, decode .command bytes = .ok i ∧ step s = exec i { s with inputs := rest }))) ∨
    (∃ r, s.seq = some r ∧ s.Powered ∧
      ((keyNibble? s.kl r.layer r.g = none ∧ step s = .fault .noKeyNibble) ∨
       (∃ k, keyNibble? s.kl r.layer r.g = some k ∧
          step s = .next (advance
            { s with x := keyEffect s.cfg.size (decodeKey r.layer r.phase r.g k) s.x })))) := by
  by_cases hp : s.Powered
  · refine .inr ?_
    rcases Option.eq_none_or_eq_some s.seq with hr | ⟨r, hr⟩
    · rcases hq : s.inputs with _ | ⟨bytes | _, rest⟩
      · exact .inl ⟨hr, rfl, step_waiting hr hq⟩
      · refine .inr (.inl ⟨bytes, rest, hr, rfl, ?_⟩)
        rcases hd : decode .command bytes with why | i
        · exact .inl ⟨why, rfl, by simp [step, fetch_command hr hq, hd]⟩
        · exact .inr ⟨i, rfl, step_command hr hq hd⟩
      · exact absurd (by rw [hq]; rfl) hp
    · refine .inr (.inr ⟨r, hr, hp, ?_⟩)
      rcases Option.eq_none_or_eq_some (keyNibble? s.kl r.layer r.g) with hk | ⟨k, hk⟩
      · exact .inl ⟨hk, by simp [step, fetch_running hr hp, fetchKey, hk]⟩
      · exact .inr ⟨k, hk, step_running hr hp hk⟩
  · refine .inl ?_
    rcases hq : s.inputs with _ | ⟨_ | _, rest⟩
    · exact absurd (by simp [State.Powered, hq]) hp
    · exact absurd (by simp [State.Powered, hq]) hp
    · exact ⟨rest, rfl, step_powerLoss hq⟩

end Sys2Proof.Machine
end

