-- ==== Sys2Proof/Machine/Listing.lean ====
section
/-! DEFINITION. The textual form of an instruction (spec/30_encoding.md R92). Nothing executes it. -/

namespace Sys2Proof.Machine

/-- A wire operand, `W(w)`. -/
def wireText (w : Nat) : String := "W(" ++ toString w ++ ")"

/-- A gate with its three wires, reduced `mod SIZE`. -/
def gateText (size : Nat) (mnemonic : String) (layer : Nat) (sub : Sublayer) (g : Nat) : String :=
  mnemonic ++ " " ++ wireText (wire size layer sub g 0) ++ ", " ++ wireText (wire size layer sub g 1) ++ ", " ++
    wireText (wire size layer sub g 2)

/-- A nibble array, one digit per nibble, position 0 first (R17). -/
def nibblesText (l : List Nibble) : String := String.ofList (l.map hexDigit)

/-- The line of an instruction on an instance with this `SIZE`. -/
def listing (size : Nat) : Instr → String
  | .mix _ g k => "MIX x[" ++ toString g ++ "], " ++ nibblesText [k]
  | .s1TofR layer g _ => gateText size "S1.TOF.R" layer .s1 g
  | .s1FreR layer g _ => gateText size "S1.FRE.R" layer .s1 g
  | .s1TofM layer g _ => gateText size "S1.TOF.M" layer .s1 g
  | .s1FreM layer g _ => gateText size "S1.FRE.M" layer .s1 g
  | .s2TofR layer g _ => gateText size "S2.TOF.R" layer .s2 g
  | .s2FreR layer g _ => gateText size "S2.FRE.R" layer .s2 g
  | .s2TofM layer g _ => gateText size "S2.TOF.M" layer .s2 g
  | .s2FreM layer g _ => gateText size "S2.FRE.M" layer .s2 g
  | .initStd => "INIT.STD"
  | .initRnd => "INIT.RND"
  | .procPush chunk => "PROC.PUSH " ++ nibblesText (unpack chunk)
  | .procFin chunk => "PROC.FIN " ++ nibblesText (unpack chunk)
  | .rdDig => "RD.DIG"

/-- The three lines a key nibble disassembles to, in the order of the phases. -/
def disassemble (size layer g : Nat) (k : Nibble) : List String :=
  [Phase.mix, Phase.s1, Phase.s2].map fun phase => listing size (decodeKey layer phase g k)

end Sys2Proof.Machine
end

