-- ==== Sys2Proof/Tests/Slice0.lean ====
section
/-! SUPPORT. Our own tests. Expected values come from spec/: the vector's number stands with each test. The
second half gives, for every statement with hypotheses, concrete values that meet them. -/

open Sys2Proof Sys2Proof.Machine Sys2Proof.SpecTables

namespace Sys2Proof.Tests

/-! ### Helpers -/

/-- `ROM_Z` of spec/95_test_vectors.md. -/
def romZ : Vector (BitVec 64) 64 := Vector.replicate 64 0#64

/-- An instance with these parameters, at power-on. -/
def fresh (size depth : Nat) : State := { State.reset with cfg := ⟨size, depth, romZ⟩ }

/-- A state with 16 wires that hold `x`. -/
def wires16 (x : List Nibble) : State := { fresh 16 1 with x := x }

/-- `DEPTH` copies of an all-zero layer of 64 nibbles, initialised and idle. -/
def ready (depth : Nat) : State :=
  { fresh 256 depth with valid := true, kl := List.replicate depth (List.replicate 64 0#4) }

/-- An instance with `DEPTH = 2` inside a block run, at the last key nibble of the window. -/
def lastNibble : State := { ready 2 with seq := some ⟨1, .s2, 63, .fin⟩ }

/-- The chunk of 32 equal bytes. -/
def chunkOfByte (b : Byte) : Chunk := Vector.replicate 32 b

/-- The next state of an outcome. -/
def nextOf (o : Host.Outcome State Fault Refusal) : Option State :=
  match o with
  | .next t => some t
  | .fault _ => none
  | .refused _ => none

/-- The working state an operation leaves. -/
def xAfter (i : Instr) (s : State) : Option (List Nibble) := (nextOf (exec i s)).map State.x

/-- What the host is handed. -/
def answer (i : Instr) (s : State) : Option Response := (nextOf (exec i s)).map State.response

/-! ### Well-formedness: one ill-formed term for each check -/

theorem test_wf_accepts : Instr.wf 2 4 (.mix 1 3 0xf#4) = true := by decide
theorem test_wf_mix : Instr.wf 2 4 (.mix 2 0 0#4) = false ∧ Instr.wf 2 4 (.mix 0 4 0#4) = false := by decide
theorem test_wf_s1TofR : Instr.wf 2 4 (.s1TofR 2 0 0) = false ∧ Instr.wf 2 4 (.s1TofR 0 4 0) = false := by decide
theorem test_wf_s1FreR : Instr.wf 2 4 (.s1FreR 2 0 0) = false ∧ Instr.wf 2 4 (.s1FreR 0 4 0) = false := by decide
theorem test_wf_s1TofM : Instr.wf 2 4 (.s1TofM 2 0 0) = false ∧ Instr.wf 2 4 (.s1TofM 0 4 0) = false := by decide
theorem test_wf_s1FreM : Instr.wf 2 4 (.s1FreM 2 0 0) = false ∧ Instr.wf 2 4 (.s1FreM 0 4 0) = false := by decide
theorem test_wf_s2TofR : Instr.wf 2 4 (.s2TofR 2 0 0) = false ∧ Instr.wf 2 4 (.s2TofR 0 4 0) = false := by decide
theorem test_wf_s2FreR : Instr.wf 2 4 (.s2FreR 2 0 0) = false ∧ Instr.wf 2 4 (.s2FreR 0 4 0) = false := by decide
theorem test_wf_s2TofM : Instr.wf 2 4 (.s2TofM 2 0 0) = false ∧ Instr.wf 2 4 (.s2TofM 0 4 0) = false := by decide
theorem test_wf_s2FreM : Instr.wf 2 4 (.s2FreM 2 0 0) = false ∧ Instr.wf 2 4 (.s2FreM 0 4 0) = false := by decide

/-! ### Decoding: one word of every constructor, written from R81, R82 and R89 -/

theorem test_decode_mix : decode (.key 1 .mix 7) [0b00001001#8] = .ok (.mix 1 7 0b1001#4) := rfl
theorem test_decode_s1TofR : decode (.key 1 .s1 7) [0b00001100#8] = .ok (.s1TofR 1 7 0b11#2) := rfl
theorem test_decode_s1FreR : decode (.key 1 .s1 7) [0b00001101#8] = .ok (.s1FreR 1 7 0b11#2) := rfl
theorem test_decode_s1TofM : decode (.key 1 .s1 7) [0b00000110#8] = .ok (.s1TofM 1 7 0b01#2) := rfl
theorem test_decode_s1FreM : decode (.key 1 .s1 7) [0b00001011#8] = .ok (.s1FreM 1 7 0b10#2) := rfl
theorem test_decode_s2TofR : decode (.key 1 .s2 7) [0b00000011#8] = .ok (.s2TofR 1 7 0b11#2) := rfl
theorem test_decode_s2FreR : decode (.key 1 .s2 7) [0b00000110#8] = .ok (.s2FreR 1 7 0b10#2) := rfl
theorem test_decode_s2TofM : decode (.key 1 .s2 7) [0b00001001#8] = .ok (.s2TofM 1 7 0b01#2) := rfl
theorem test_decode_s2FreM : decode (.key 1 .s2 7) [0b00001110#8] = .ok (.s2FreM 1 7 0b10#2) := rfl
theorem test_decode_initStd : decode .command [0b00000000#8] = .ok .initStd := rfl
theorem test_decode_initRnd : decode .command [0b00000001#8] = .ok .initRnd := rfl
theorem test_decode_procPush :
    decode .command (0b00000010#8 :: (chunkOfByte 0x61#8).toList) = .ok (.procPush (chunkOfByte 0x61#8)) := rfl
theorem test_decode_procFin :
    decode .command (0b00000011#8 :: (chunkOfByte 0x62#8).toList) = .ok (.procFin (chunkOfByte 0x62#8)) := rfl
theorem test_decode_rdDig : decode .command [0b00000100#8] = .ok .rdDig := rfl

theorem test_decode_rejects :
    decode .command [] = .error .empty ∧ decode .command [0b00000101#8] = .error (.noCommand 5#3) ∧
    decode .command [0b00001000#8] = .error (.notACode 8#8) ∧
    decode .command [2#8, 0#8] = .error (.badLength 1) ∧ decode .command [4#8, 0#8] = .error (.badLength 1) ∧
    decode (.key 0 .s1 0) [0x10#8] = .error .notANibble ∧ decode (.key 0 .mix 0) [] = .error .notANibble :=
  ⟨rfl, rfl, rfl, rfl, rfl, rfl, rfl⟩

/-- The host's question about a table word: does the first step after reset run it? -/
theorem test_withFetchWord_runs_commands :
    step (State.reset.withFetchWord 8 4) = exec .rdDig State.reset ∧
    step (State.reset.withFetchWord 3 0) = exec .initStd State.reset ∧
    step (State.reset.withFetchWord 8 2) = exec (.procPush (chunkOfByte 0#8)) State.reset := ⟨rfl, rfl, rfl⟩

theorem test_withFetchWord_runs_key_nibbles :
    ((nextOf (step (State.reset.withFetchWord 4 0xa))).bind State.seq) = some ⟨0, .s2, 1, .push⟩ := by decide

/-! ### Key-nibble operations: vectors G1 to G20 and program P1 -/

theorem test_mix : xAfter (.mix 0 0 6#4) (wires16 [1, 0xb, 0, 7]) = some [7, 0xb, 0, 7] := by decide  -- P1 step 1
theorem test_mix_last : xAfter (.mix 0 3 0xe#4) (wires16 [7, 6, 3, 7]) = some [7, 6, 3, 9] := by decide  -- P1 step 4
theorem test_s1TofR_even : xAfter (.s1TofR 0 0 0) (wires16 [3, 0, 0, 0]) = some [7, 0, 0, 0] := by decide  -- G1
theorem test_s1TofR_odd : xAfter (.s1TofR 1 0 0) (wires16 [6, 0, 0, 0]) = some [0xe, 0, 0, 0] := by decide  -- G5
theorem test_s1FreR_even : xAfter (.s1FreR 0 0 0) (wires16 [3, 0, 0, 0]) = some [5, 0, 0, 0] := by decide  -- G2
theorem test_s1FreR_odd : xAfter (.s1FreR 1 0 0) (wires16 [0xa, 0, 0, 0]) = some [6, 0, 0, 0] := by decide  -- G6
theorem test_s1TofM_even : xAfter (.s1TofM 0 0 0) (wires16 [6, 0, 0, 0]) = some [7, 0, 0, 0] := by decide  -- G3
theorem test_s1TofM_odd : xAfter (.s1TofM 1 0 0) (wires16 [0xc, 0, 0, 0]) = some [0xe, 0, 0, 0] := by decide  -- G7
theorem test_s1FreM_even : xAfter (.s1FreM 0 0 0) (wires16 [5, 0, 0, 0]) = some [6, 0, 0, 0] := by decide  -- G4
theorem test_s1FreM_odd : xAfter (.s1FreM 1 0 0) (wires16 [0xa, 0, 0, 0]) = some [0xc, 0, 0, 0] := by decide  -- G8
theorem test_s2TofR_wraps : xAfter (.s2TofR 0 3 0) (wires16 [0, 0, 0, 0xc]) = some [1, 0, 0, 0xc] := by decide  -- G14
theorem test_s2TofR_idle : xAfter (.s2TofR 1 0 0) (wires16 [8, 0, 0, 3]) = some [8, 0, 0, 3] := by decide  -- G17
theorem test_s2FreR_even : xAfter (.s2FreR 0 0 0) (wires16 [4, 1, 0, 0]) = some [0xc, 0, 0, 0] := by decide  -- G11
theorem test_s2FreR_odd : xAfter (.s2FreR 1 0 0) (wires16 [8, 1, 0, 0]) = some [8, 2, 0, 0] := by decide  -- G19
theorem test_s2TofM_even : xAfter (.s2TofM 0 0 0) (wires16 [8, 1, 0, 0]) = some [0xc, 1, 0, 0] := by decide  -- G12
theorem test_s2TofM_wraps : xAfter (.s2TofM 1 3 0) (wires16 [3, 0, 0, 8]) = some [3, 0, 0, 0] := by decide  -- G18
theorem test_s2FreM_wraps : xAfter (.s2FreM 0 3 0) (wires16 [1, 0, 0, 8]) = some [1, 0, 0, 4] := by decide  -- G16
theorem test_s2FreM_odd_wraps : xAfter (.s2FreM 1 3 0) (wires16 [2, 0, 0, 8]) = some [3, 0, 0, 0] := by decide  -- G20

/-! ### Rounds, codec, schedule, rotation -/

theorem test_round_even : applyLayer 16 0 [6, 0xd, 3, 0xe] [1, 0xb, 0, 7] = [6, 0xa, 3, 9] := by decide  -- A1, P1
theorem test_round_odd : applyLayer 8 1 [0xb, 4] [7, 0xe] = [9, 0xa] := by decide  -- A6
theorem test_unpack : (unpack (chunkOfByte 0x1f#8)).take 4 = [1, 0xf, 1, 0xf] := by decide  -- R200
theorem test_pack_short : pack 16 [1, 2, 3] = [0x12, 0x30] := by decide  -- C4
theorem test_pack_long : pack 16 [1, 2, 3, 4, 5] = [0x12, 0x34] := by decide  -- C7
theorem test_seed_low_bits_unused : (List.range 8).map (seedNibble 0xFF#64) = [0, 0, 0, 0, 0, 0, 0, 0] := by decide  -- K3
theorem test_seed_digits :
    (List.range 8).map (seedNibble 0x0123456789ABCDEF#64) = [6, 7, 8, 9, 0xa, 0xb, 0xc, 0xd] := by decide  -- K8
theorem test_layer_70 : stdLayer romZ 4 70 = [6, 7, 8, 9] := by decide  -- the end of section 2.6
theorem test_rotate : rotate 3 [9] [[1], [2], [3]] = [[9], [1], [2]] := by decide  -- section 2.7

theorem test_disassemble :  -- P1 steps 1, 5 and 9
    disassemble 16 0 0 6#4 = ["MIX x[0], 6", "S1.TOF.M W(0), W(1), W(2)", "S2.FRE.R W(2), W(3), W(4)"] := by
  decide

theorem test_disassemble_wraps :  -- P1 steps 4, 8 and 12
    disassemble 16 0 3 0xe#4 = ["MIX x[3], e", "S1.TOF.M W(12), W(13), W(14)", "S2.FRE.M W(14), W(15), W(0)"] := by
  decide

/-- R296: a loss of power at the last key nibble of a block run ends the run and clears `VALID`. -/
theorem test_power_loss_inside_block_run :
    (nextOf (step { lastNibble with inputs := [.powerLoss, .command [4#8]] })).map
      (fun t => (t.valid, t.seq, t.inputs)) = some (false, none, [.command [4#8]]) := by decide

/-- Before a key nibble is placed, a loss of power that would come first is taken away. -/
theorem test_withFetchWord_key_comes_first :
    ((nextOf (step ({ ready 2 with inputs := [.powerLoss] }.withFetchWord 4 0xa))).bind State.seq)
      = some ⟨0, .s2, 1, .push⟩ := by decide

/-! ### Commands: vectors X1 to X13 and program P4 -/

theorem test_initStd_loads_schedule :  -- X10, K12
    (nextOf (exec .initStd (fresh 256 1))).map (fun t => (t.valid, (t.kl.headD []).drop 6, t.kl.length))
      = some (true, 0 :: 0 :: List.replicate 56 1, 1) := by decide
theorem test_initStd_bad_depth : answer .initStd (fresh 512 0) = some (.fault (.configError .depth)) := by decide  -- X9
theorem test_initRnd_bad_size : answer .initRnd (fresh 12 128) = some (.fault (.configError .size)) := by decide  -- X6
theorem test_initRnd_initialises :  -- R223
    (nextOf (exec .initRnd (fresh 256 2))).map (fun t => (t.valid, t.ldn, t.kl.map List.length))
      = some (true, List.replicate 64 0, [64, 64]) := by decide
theorem test_procPush_fresh :  -- X3
    answer (.procPush (chunkOfByte 0#8)) (fresh 256 128) = some (.fault .notInitialised) := by decide
theorem test_procFin_fresh :  -- X2
    answer (.procFin (chunkOfByte 0#8)) (fresh 256 128) = some (.fault .notInitialised) := by decide
theorem test_rdDig_fresh : answer .rdDig (fresh 256 128) = some (.fault .notInitialised) := by decide  -- X1
theorem test_rdDig_packs :  -- C3
    answer .rdDig { ready 1 with ldn := 3 :: 0xc :: List.replicate 62 0 }
      = some (.ok (0x3c :: List.replicate 31 0)) := by decide

/-- P3 after its first step: the window `INIT.STD` loads from `ROM_Z` with `DEPTH = 2`. -/
def p3 : State :=
  { ready 2 with kl := [List.replicate 8 0 ++ List.replicate 56 1, List.replicate 8 0 ++ List.replicate 56 2] }

/-- P3's chunk `A`, the bytes 00 01 02 ... 1f. -/
def p3Chunk : Chunk := Vector.ofFn fun i => BitVec.ofNat 8 i.val

/-- P3's value `H1`. -/
def p3Result : List Nibble :=
  [3, 0, 0, 1, 0, 2, 0, 0xf, 1, 1, 3, 6, 3, 5, 3, 4] ++
  [3, 0xb, 1, 0xa, 1, 0xd, 2, 8, 1, 9, 1, 0xc, 2, 0xf, 2, 0xe] ++
  [1, 3, 2, 2, 2, 7, 2, 0, 2, 1, 2, 6, 2, 5, 2, 4] ++
  [2, 0xb, 2, 0xa, 2, 0xd, 1, 8, 2, 9, 2, 0xc, 1, 0xf, 1, 0xe]

theorem test_procFin_p3 :  -- P3 step 3
    (nextOf (exec (.procFin p3Chunk) p3)).map (fun t => (t.ldn, t.kl)) = some (p3Result, p3.kl) := by
  decide +kernel

theorem test_procPush_p3 :  -- P3 step 5
    (nextOf (exec (.procPush p3Chunk) p3)).map (fun t => (t.kl, t.ldn))
      = some ([p3Result, List.replicate 8 0 ++ List.replicate 56 1], List.replicate 64 0) := by
  decide +kernel

/-! ### Witnesses: concrete values that meet the hypotheses of each statement, at the ends of their ranges -/

/-- An uninitialised instance of the right shape. -/
def unready : State := { ready 2 with valid := false }

theorem lastNibble_meets_invariant : lastNibble.Inv ∧ lastNibble.seq = some ⟨1, .s2, 63, .fin⟩ := by decide

theorem wit_KeyNibbleDecodesAsTable :
    (0x0, Gate.tofR, Gate.tofR) ∈ keyTable ∧ (0xf, Gate.freM, Gate.freM) ∈ keyTable := by decide

theorem wit_DecodeAndEncodeAreInverse : decode (.key 1 .s2 7) [0x0e#8] = .ok (.s2FreM 1 7 0b10#2) := rfl

theorem wit_SpareCodesNameNoCommand :
    (∀ b ∈ [5#8, 7#8], 5 ≤ b.toNat ∧ b.toNat < 8) ∧ (ready 2).seq = none ∧
    ({ ready 2 with inputs := [.command [5#8]] } : State).inputs = .command (5#8 :: []) :: [] := by decide

theorem wit_WireWriteChangesExactlyOneWire :
    (7 / 4 < [0xa#4, 5#4].length ∧ 0 ≠ 7 / 4 ∧ 2 < 4 ∧ 2 ≠ 7 % 4) ∧ 0 / 4 < [0xa#4, 5#4].length := by decide

theorem wit_UnpackedChunkBitsLandOnWires : 0 < 256 ∧ (0 / 4) % 2 = 0 ∧ 255 < 256 ∧ ¬ (255 / 4) % 2 = 0 := by decide

theorem wit_WireAddressingFourCases :
    legalSize 8 ∧ 1 < 8 / 4 ∧ 2 < 3 ∧ 0 % 2 = 0 ∧ 1 % 2 = 1 ∧ legalSize 256 ∧ 63 < 256 / 4 := by decide

theorem wit_GatesOfASublayerAreDisjoint :
    legalSize 8 ∧ 0 < 8 / 4 ∧ 1 < 8 / 4 ∧ 0 < 3 ∧ 2 < 3 ∧ 0 ≠ 2 ∧ 0 ≠ 1 ∧ 0 % 2 = 0 ∧ 1 % 2 = 1 := by decide

theorem wit_ToffoliRegularResultAndFrame :
    legalSize (wires16 [3, 0, 0, 0]).cfg.size ∧ (wires16 [3, 0, 0, 0]).x.length = (wires16 [3, 0, 0, 0]).cfg.n ∧
    15 < (wires16 [3, 0, 0, 0]).cfg.size ∧ wire 16 0 .s1 0 2 = 2 := by decide

theorem wit_ToffoliMirroredResultAndFrame :
    legalSize (wires16 [6, 0, 0, 0]).cfg.size ∧ (wires16 [6, 0, 0, 0]).x.length = (wires16 [6, 0, 0, 0]).cfg.n ∧
    15 < (wires16 [6, 0, 0, 0]).cfg.size ∧ wire 16 0 .s1 0 0 = 0 := by decide

theorem wit_FredkinRegularResultAndFrame :
    legalSize (wires16 [4, 1, 0, 0]).cfg.size ∧ (wires16 [4, 1, 0, 0]).x.length = (wires16 [4, 1, 0, 0]).cfg.n ∧
    15 < (wires16 [4, 1, 0, 0]).cfg.size ∧ wire 16 0 .s2 0 1 = 3 := by decide

theorem wit_FredkinMirroredResultAndFrame :
    legalSize (wires16 [1, 0, 0, 8]).cfg.size ∧ (wires16 [1, 0, 0, 8]).x.length = (wires16 [1, 0, 0, 8]).cfg.n ∧
    15 < (wires16 [1, 0, 0, 8]).cfg.size ∧ wire 16 0 .s2 3 1 = 15 := by decide

theorem wit_GateStepsFollowTruthTables :
    legalSize (wires16 [3, 0, 0, 0]).cfg.size ∧
    (wires16 [3, 0, 0, 0]).x.length = (wires16 [3, 0, 0, 0]).cfg.n := by decide

theorem wit_SublayerOneGatesAreNibbleMaps :
    legalSize (wires16 [3, 0, 0, 9]).cfg.size ∧
    (wires16 [3, 0, 0, 9]).x.length = (wires16 [3, 0, 0, 9]).cfg.n ∧ 3 < (wires16 [3, 0, 0, 9]).cfg.n := by decide

theorem wit_KeyOperationsAreInvolutions :
    (Instr.mix 0 3 0xf#4).isKeyOp = true ∧ (Instr.s2FreM 1 3 0).isKeyOp = true ∧
    legalSize (wires16 [2, 0, 0, 8]).cfg.size ∧
    (wires16 [2, 0, 0, 8]).x.length = (wires16 [2, 0, 0, 8]).cfg.n := by decide

theorem wit_MirroredGatesReverseTheWires : (14 : Nat) ≠ 15 ∧ (15 : Nat) ≠ 0 ∧ (14 : Nat) ≠ 0 := by decide

theorem wit_MixResultAndFrame :
    (3 < (wires16 [1, 2, 3, 4]).x.length ∧ 0 ≠ 3 ∧ 3 < 4) ∧
    ([6#4, 0xd#4].length = 8 / 4 ∧ [1#4, 0xb#4].length = 8 / 4) := by decide

theorem wit_SublayerOneIsLanewiseMap :
    legalSize 8 ∧ [6#4, 0xd#4].length = 8 / 4 ∧ [1#4, 0xb#4].length = 8 / 4 := by decide

theorem wit_PhaseResultIndependentOfOrder :
    legalSize 8 ∧ [1#4, 0xb#4].length = 8 / 4 ∧ [1, 0].Perm (List.range (8 / 4)) := by decide

theorem wit_RoundIsUndoneByReversedPhases : legalSize 8 ∧ [7#4, 0xe#4].length = 8 / 4 := by decide

theorem wit_PermuteAndProcessBlockAreBijective :
    (legalSize 16 ∧ [0xe#4, 0xa#4, 0xa#4, 0xe#4].length = 16 / 4) ∧ p3Result.length = 64 := by decide

theorem wit_ZeroWindowFixesZeroState : legalSize 8 ∧ legalSize 256 ∧ [0xb#4, 4#4].length = 8 / 4 := by decide

theorem wit_SequencerRunEqualsCommand :
    (ready 2).Inv ∧ (ready 2).valid = true ∧ (ready 2).seq = none ∧ (ready 2).Powered := by decide

theorem wit_BlockRunWritesOnlyWorkingState :
    (ready 2).Inv ∧ (ready 2).valid = true ∧ (ready 2).seq = none ∧ (ready 2).Powered ∧
    383 < 3 * (ready 2).cfg.n * (ready 2).cfg.depth ∧ 0 < 3 * (ready 2).cfg.n * (ready 2).cfg.depth := by decide

/-- First clause: a pending `RD.DIG`. -/
theorem wit_StepRunsTheDecodedInstruction_command :
    (ready 2).seq = none ∧ ({ ready 2 with inputs := [.command [4#8]] } : State).inputs = .command [4#8] :: [] ∧
    decode .command [4#8] = .ok .rdDig := ⟨rfl, rfl, rfl⟩

/-- Second clause: the last key nibble of the window. -/
theorem wit_StepRunsTheDecodedInstruction_nibble :
    lastNibble.seq = some ⟨1, .s2, 63, .fin⟩ ∧ lastNibble.Powered ∧ keyNibble? lastNibble.kl 1 63 = some 0#4 ∧
    decode (.key 1 .s2 63) [keyByte 0#4] = .ok (.s2TofR 1 63 0) ∧
    ∃ t, exec (.s2TofR 1 63 0) lastNibble = .next t := ⟨rfl, by decide, by decide, rfl, _, rfl⟩

/-- Third clause: idle with nothing pending. -/
theorem wit_StepRunsTheDecodedInstruction_waiting : (ready 2).seq = none ∧ (ready 2).inputs = [] := ⟨rfl, rfl⟩

/-- First clause: layers 63 and 65 at `DEPTH = 66`, and the smallest `DEPTH`; second clause: `DEPTH = 0`. -/
theorem wit_InitStdResult :
    (fresh 256 66).seq = none ∧ (1 ≤ (fresh 256 66).cfg.depth ∧ (fresh 256 66).cfg.size = 256) ∧
    (63 < 64 ∧ 63 < (fresh 256 66).cfg.depth) ∧ (64 ≤ 65 ∧ 65 < (fresh 256 66).cfg.depth) ∧
    1 ≤ (fresh 256 1).cfg.depth ∧ ¬ (1 ≤ (fresh 256 0).cfg.depth ∧ (fresh 256 0).cfg.size = 256) := by decide

theorem wit_InitRndResult :
    (fresh 256 1).seq = none ∧ (1 ≤ (fresh 256 1).cfg.depth ∧ (fresh 256 1).cfg.size = 256) ∧
    0 < (fresh 256 1).cfg.depth ∧ 63 < 64 ∧
    ¬ (1 ≤ (fresh 128 1).cfg.depth ∧ (fresh 128 1).cfg.size = 256) := by decide

theorem wit_StandardLayersFollowTheRendering :
    (63 < 64 ∧ 7 < 16 ∧ 7 < 8) ∧ (63 < 64 ∧ 8 ≤ 8 ∧ 8 < 16) ∧ (64 ≤ 64 ∧ 15 < 16) := by decide

/-- Two tables that differ in every bit outside 39 to 8 and agree inside. -/
theorem wit_OnlyMiddleRomBitsReachTheWindow :
    ∀ (j : Nat) (h : j < 64) (b : Nat), 8 ≤ b → b ≤ 39 →
      (romZ[j]).getLsbD b = ((Vector.replicate 64 0xFFFFFF00000000FF#64)[j]).getLsbD b := by
  intro j h b h8 h39
  simp only [romZ, Vector.getElem_replicate]
  interval_cases b <;> decide

theorem wit_InitForgetsEarlierState :
    (fresh 256 2).seq = none ∧ (ready 2).seq = none ∧ (fresh 256 2).cfg = (ready 2).cfg ∧
    1 ≤ (fresh 256 2).cfg.depth ∧ (fresh 256 2).cfg.size = 256 := by decide

theorem wit_ProcPushResult :
    ((ready 2).Inv ∧ (ready 2).seq = none ∧ (ready 2).valid = true ∧ 1 ≤ 1 ∧ 1 < (ready 2).cfg.depth) ∧
    (unready.Inv ∧ unready.seq = none ∧ unready.valid = false) := by decide

theorem wit_ProcFinResult :
    ((ready 2).seq = none ∧ (ready 2).valid = true) ∧ (unready.seq = none ∧ unready.valid = false) := by decide

theorem wit_RdDigResult :
    ((ready 2).Inv ∧ (ready 2).seq = none ∧ (ready 2).valid = true ∧ 31 < (ready 2).cfg.b ∧
      (ready 2).ldn = List.replicate (ready 2).cfg.n 0#4) ∧
    (unready.Inv ∧ unready.seq = none ∧ unready.valid = false) := by decide

theorem wit_PackCombinesNibblePairs : 1 < 16 / 8 ∧ 0 < 16 / 8 := by decide

theorem wit_PackAndUnpackAreInverse : p3Result.length = 64 := by decide

theorem wit_DifferentChunksDifferentDigests :
    (ready 2).Inv ∧ (ready 2).valid = true ∧ (ready 2).seq = none ∧ chunkOfByte 0x61#8 ≠ chunkOfByte 0x62#8 := by
  decide

theorem wit_NotInitialisedWhileInvalid : State.reset.seq = none ∧ State.reset.valid = false := ⟨rfl, rfl⟩

/-- One configuration for each clause; no configuration falls under two. -/
theorem wit_InitChecksInOrder :
    (fresh 12 0).cfg.depth < 1 ∧
    (1 ≤ (fresh 12 1).cfg.depth ∧ ¬ legalSize (fresh 12 1).cfg.size) ∧
    (1 ≤ (fresh 128 1).cfg.depth ∧ legalSize (fresh 128 1).cfg.size ∧ (fresh 128 1).cfg.size ≠ 256) ∧
    (fresh 12 0).seq = none := by decide

theorem wit_FaultingCommandChangesNothing :
    Instr.rdDig.isKeyOp = false ∧
    exec .rdDig (fresh 256 1) = .next { fresh 256 1 with response := .fault .notInitialised } := ⟨rfl, rfl⟩

theorem wit_EveryCommandSucceedsOnceInitialised :
    (ready 2).Inv ∧ (ready 2).valid = true ∧ (ready 2).seq = none ∧ Instr.initStd.isKeyOp = false := by decide

theorem wit_CommandDuringBlockRunRefused :
    lastNibble.seq = some ⟨1, .s2, 63, .fin⟩ ∧ Instr.rdDig.isKeyOp = false := ⟨rfl, rfl⟩

/-- First clause: a step that keeps `VALID` and one that clears it; second clause: an `INIT`. -/
theorem wit_ConfigurationFixedAndOnlyPowerLossClearsValid :
    (∃ t, step { ready 2 with inputs := [.command [0#8]] } = .next t) ∧
    (∃ t, step { ready 2 with inputs := [.powerLoss] } = .next t ∧ t.valid = false) ∧ (ready 2).valid = true ∧
    (∃ t, exec .initStd (ready 2) = .next t) := ⟨⟨_, rfl⟩, ⟨_, rfl, rfl⟩, rfl, ⟨_, rfl⟩⟩

/-- For each of the three clauses an instruction that changes the field. -/
theorem wit_OnlyTheNamedCommandsWriteState :
    (∃ t, exec .initStd (fresh 256 1) = .next t ∧ t.kl ≠ (fresh 256 1).kl ∧ t.valid ≠ (fresh 256 1).valid) ∧
    (∃ t, exec (.procFin p3Chunk) p3 = .next t ∧ t.ldn ≠ p3.ldn) :=
  ⟨⟨_, rfl, by decide, by decide⟩, ⟨_, rfl, by decide +kernel⟩⟩

theorem wit_CommandsNeverReadOldWorkingState : (ready 2).seq = none ∧ (ready 2).Powered := by decide

theorem wit_EveryStepKeepsInvariant :
    ({ ready 2 with inputs := [.command [4#8]] } : State).Inv ∧
    ∃ t, step { ready 2 with inputs := [.command [4#8]] } = .next t := ⟨by decide, _, rfl⟩

theorem wit_MachineAlwaysGoesOn : lastNibble.Inv ∧ (ready 2).Inv := by decide

/-- A loss of power inside a block run of the last key nibble, and one of the default instance after reset. -/
theorem wit_PowerLossReturnsToPowerOn :
    ({ lastNibble with inputs := [.powerLoss] } : State).inputs = .powerLoss :: [] ∧
    ({ State.reset with inputs := [.powerLoss] } : State).cfg = State.reset.cfg ∧
    1 ≤ lastNibble.cfg.depth ∧ lastNibble.cfg.size = 256 ∧ (ready 2).seq = none ∧ (ready 2).inputs = [] :=
  ⟨rfl, rfl, by decide, rfl, rfl, rfl⟩

/-- A run of `INIT.STD` on an instance with `DEPTH = 0`, and one with nothing to do. -/
theorem wit_BadConfigurationNeverInitialises :
    (fresh 256 0).seq = none ∧ (fresh 256 0).valid = false ∧
    ¬ (1 ≤ (fresh 256 0).cfg.depth ∧ (fresh 256 0).cfg.size = 256) ∧
    (∃ t, step { fresh 256 0 with inputs := [.command [0#8]] } = .next t) ∧ step (fresh 256 0) = .next (fresh 256 0) :=
  ⟨rfl, rfl, by decide, ⟨_, rfl⟩, rfl⟩

theorem wit_WindowAfterRotations :
    [[1#4], [2#4], [3#4]].length = 3 ∧ (0 < 3 ∧ 0 < [[9#4], [8#4]].length) ∧
    (2 < 3 ∧ ¬ 2 < [[9#4], [8#4]].length) := by decide

theorem wit_IssuedCommandsRunInOrder :
    (ready 2).seq = none ∧ (ready 2).inputs = [] ∧
    ∀ i ∈ [Instr.initStd, Instr.procFin p3Chunk, Instr.rdDig], i.isKeyOp = false := by decide

/-- A message of 33 bytes: one full block and a rest. -/
theorem wit_AbsorbCommandTrace :
    List.replicate 33 0x61#8 ≠ [] ∧ 0 < (List.replicate 33 0x61#8).length / 32 ∧ 31 < 32 := by decide

theorem wit_SplitAbsorbSameResult :
    (ready 2).valid = true ∧ (ready 2).seq = none ∧ [0x48#8] ≠ [] ∧ [0x69#8] ≠ [] := by decide

theorem wit_PaddingCollision :
    ([0x61#8] ≠ [] ∧ [0x61#8].length + 1 < 32) ∧
    (List.replicate 30 0x61#8 ≠ [] ∧ (List.replicate 30 0x61#8).length + 1 < 32) := by decide

theorem wit_EmptyMessageDigestIsZero :
    (fresh 256 1).seq = none ∧ 1 ≤ (fresh 256 1).cfg.depth ∧ (fresh 256 1).cfg.size = 256 := by decide

theorem wit_HexDigestPrintsResultRegister :
    (ready 2).Inv ∧ (ready 2).valid = true ∧ (ready 2).seq = none := by decide

end Sys2Proof.Tests
end

/-! PROOFS of the family `10_state.md`: what an instruction and a step keep of the state (R21 to R30, R36, R296). -/

namespace Sys2Proof

/-! ### What the decoder of format `CMD` can answer -/

theorem decodeBare_ok {i j : Instr} {arg : List Byte} (h : decodeBare i arg = .ok j) : j = i := by
  cases arg with
  | nil => cases h; rfl
  | cons b bs => cases h

theorem decodeChunk_ok {make : Chunk → Instr} {arg : List Byte} {j : Instr} (h : decodeChunk make arg = .ok j) :
    ∃ c, j = make c := by
  unfold decodeChunk at h
  split at h
  · cases h; exact ⟨_, rfl⟩
  · cases h

/-- At the command port only commands are decoded (R80). -/
theorem isKeyOp_of_decode_command {bytes : List Byte} {i : Instr} (h : decode .command bytes = .ok i) :
    i.isKeyOp = false := by
  simp only [decode, decodeCommand] at h
  split at h
  · cases h
  · split at h
    · rw [decodeBare_ok h]; rfl
    · rw [decodeBare_ok h]; rfl
    · obtain ⟨c, rfl⟩ := decodeChunk_ok h; rfl
    · obtain ⟨c, rfl⟩ := decodeChunk_ok h; rfl
    · rw [decodeBare_ok h]; rfl
    · split at h <;> cases h

end Sys2Proof

namespace Sys2Proof.Machine

/-! ### The invariant, one lemma per operation -/

/-- Any two working states of `N` nibbles are alike to the invariant. -/
theorem State.Inv.withX {s : State} (hs : s.Inv) {x : List Nibble} (hx : x.length = s.cfg.n) :
    ({ s with x := x } : State).Inv := by
  obtain ⟨⟨hkl, hK, hldn, -⟩, hrest⟩ := hs
  exact ⟨⟨hkl, hK, hldn, hx⟩, hrest⟩

theorem State.Inv.length_x {s : State} (hs : s.Inv) : s.x.length = s.cfg.n := by
  obtain ⟨⟨-, -, -, hx⟩, -⟩ := hs
  exact hx

/-- Once `VALID` is 1, `N = 64`, so a block result fits its registers (R222). -/
theorem State.Inv.n_eq_of_valid {s : State} (hs : s.Inv) (hv : s.valid = true) : s.cfg.n = 64 := by
  obtain ⟨-, -, hcfg, -⟩ := hs
  rw [Params.n, (hcfg hv).2]

theorem inv_of_idle {s : State} (hs : s.Shaped) (hcfg : s.valid = true → 1 ≤ s.cfg.depth ∧ s.cfg.size = 256)
    (hq : s.seq = none) : s.Inv :=
  ⟨hs, by simp [State.seqInRange, hq], hcfg, by simp [hq]⟩

/-- A loss of power gives a state that meets the invariant, whatever it was before. -/
theorem losePower_inv (s : State) : (losePower s).Inv :=
  inv_of_idle (losePower_shaped s) (by simp) rfl

theorem initialised_inv (mode : Mode) {s : State} (hc : configCheck s.cfg = none) (hq : s.seq = none) :
    (initialised mode s).Inv :=
  inv_of_idle ⟨length_initialWindow _ _, initialWindow_shaped _ _, List.length_replicate, length_freeNibbles _ _⟩
    (fun _ => (configCheck_none s.cfg).mp hc) hq

/-- A block run that ends with `N` nibbles, for either destination. -/
theorem finishBlock_inv (dest : Dest) {h : List Nibble} {s : State} (hs : s.Inv) (hh : h.length = s.cfg.n) :
    (finishBlock dest h s).Inv := by
  obtain ⟨⟨hkl, hK, hldn, -⟩, -, hcfg, -⟩ := hs
  cases dest with
  | push =>
    exact inv_of_idle ⟨length_rotate h hkl, rotate_shaped hh hK, hldn, length_freeNibbles _ _⟩ hcfg rfl
  | fin => exact inv_of_idle ⟨hkl, hK, hh, length_freeNibbles _ _⟩ hcfg rfl

theorem exec_inv {i : Instr} {s t : State} (hs : s.Inv) (h : exec i s = .next t) : t.Inv := by
  rcases exec_next_cases h with ⟨-, rfl⟩ |
    ⟨-, hq, ⟨e, rfl⟩ | ⟨mode, -, hc, rfl⟩ | ⟨hv, chunk, dest, -, rfl⟩ | ⟨-, -, rfl⟩⟩
  · exact hs.withX (by rw [length_keyEffect, hs.length_x])
  · exact hs
  · exact initialised_inv mode hc hq
  · exact finishBlock_inv dest hs (by rw [length_processBlock, hs.n_eq_of_valid hv])
  · exact hs

/-- After a key nibble the sequencer stands at the next position of the window, or the block run has ended. -/
theorem advance_inv {s : State} {r : BlockRun} (hs : s.Inv) (hr : s.seq = some r) : (advance s).Inv := by
  rcases advance_cases hr with ⟨r', hn, ha⟩ | ⟨-, ha⟩
  · obtain ⟨hshape, hseq, hcfg, hrun⟩ := hs
    obtain ⟨hl, hg⟩ := hseq r hr
    obtain ⟨hl', hg', -⟩ := nextPosition_inRange hl hg hn
    rw [ha]
    refine ⟨hshape, ?_, hcfg, fun _ => hrun (by rw [hr]; rfl)⟩
    rintro _ ⟨⟩
    exact ⟨hl', hg'⟩
  · rw [ha]
    exact finishBlock_inv r.dest hs hs.length_x

theorem step_inv {s t : State} (hs : s.Inv) (h : step s = .next t) : t.Inv := by
  rcases step_cases s with ⟨rest, -, hstep⟩ | ⟨-, -, hstep⟩ |
    ⟨bytes, rest, -, -, ⟨why, -, hstep⟩ | ⟨i, -, hstep⟩⟩ | ⟨r, hr, -, ⟨-, hstep⟩ | ⟨k, -, hstep⟩⟩ <;>
    rw [hstep] at h
  · cases h; exact losePower_inv s
  · cases h; exact hs
  · cases h
  · have hs' : ({ s with inputs := rest } : State).Inv := hs
    exact exec_inv hs' h
  · cases h
  · cases h
    exact advance_inv (hs.withX (by rw [length_keyEffect, hs.length_x])) hr

/-! ### What an instruction leaves unchanged -/

/-- The two commands of construction (R221, R223). -/
def IsInit (i : Instr) : Prop := i = .initStd ∨ i = .initRnd

theorem isInit_of_mode {i : Instr} {mode : Mode}
    (h : i = (match mode with | .standard => .initStd | .random => .initRnd)) : IsInit i := by
  cases mode with
  | standard => exact .inl h
  | random => exact .inr h

/-- The fields other than `x` that `i` leaves as they are, and who may write the rest (R27 to R30). -/
structure ExecFrame (i : Instr) (s t : State) : Prop where
  cfg    : t.cfg = s.cfg
  inputs : t.inputs = s.inputs
  kl     : t.kl = s.kl ∨ IsInit i ∨ ∃ c, i = .procPush c
  ldn    : t.ldn = s.ldn ∨ IsInit i ∨ ∃ c, i = .procFin c
  valid  : t.valid = s.valid ∨ IsInit i ∧ t.valid = true

theorem exec_frame {i : Instr} {s t : State} (h : exec i s = .next t) : ExecFrame i s t := by
  rcases exec_next_cases h with ⟨-, rfl⟩ |
    ⟨-, -, ⟨e, rfl⟩ | ⟨mode, hi, -, rfl⟩ | ⟨-, chunk, dest, hi, rfl⟩ | ⟨-, -, rfl⟩⟩
  · exact ⟨rfl, rfl, .inl rfl, .inl rfl, .inl rfl⟩
  · exact ⟨rfl, rfl, .inl rfl, .inl rfl, .inl rfl⟩
  · have hinit := isInit_of_mode hi
    exact ⟨rfl, rfl, .inr (.inl hinit), .inr (.inl hinit), .inr ⟨hinit, rfl⟩⟩
  · cases dest with
    | push => exact ⟨rfl, rfl, .inr (.inr ⟨chunk, hi⟩), .inl rfl, .inl rfl⟩
    | fin => exact ⟨rfl, rfl, .inl rfl, .inr (.inr ⟨chunk, hi⟩), .inl rfl⟩
  · exact ⟨rfl, rfl, .inl rfl, .inl rfl, .inl rfl⟩

/-- No instruction clears `VALID` (D6). -/
theorem ExecFrame.valid_of_valid {i : Instr} {s t : State} (h : ExecFrame i s t) (hv : s.valid = true) :
    t.valid = true := by
  rcases h.valid with heq | ⟨-, ht⟩
  · rw [heq, hv]
  · exact ht

theorem advance_cfg (s : State) : (advance s).cfg = s.cfg := by
  cases hr : s.seq with
  | none => simp [advance, hr]
  | some r =>
    rcases advance_cases hr with ⟨r', -, ha⟩ | ⟨-, ha⟩
    · rw [ha]
    · rw [ha, finishBlock_cfg]

theorem advance_valid (s : State) : (advance s).valid = s.valid := by
  cases hr : s.seq with
  | none => simp [advance, hr]
  | some r =>
    rcases advance_cases hr with ⟨r', -, ha⟩ | ⟨-, ha⟩
    · rw [ha]
    · rw [ha, finishBlock_valid]

/-- A step takes a loss of power, or keeps the configuration and does not clear `VALID`. -/
theorem step_powerLoss_or_keeps {s t : State} (h : step s = .next t) :
    (∃ rest, s.inputs = .powerLoss :: rest ∧ t = losePower s) ∨
      t.cfg = s.cfg ∧ (s.valid = true → t.valid = true) := by
  rcases step_cases s with ⟨rest, hin, hstep⟩ | ⟨-, -, hstep⟩ |
    ⟨bytes, rest, -, -, ⟨why, -, hstep⟩ | ⟨i, -, hstep⟩⟩ | ⟨r, -, -, ⟨-, hstep⟩ | ⟨k, -, hstep⟩⟩ <;>
    rw [hstep] at h
  · cases h; exact .inl ⟨rest, hin, rfl⟩
  · cases h; exact .inr ⟨rfl, id⟩
  · cases h
  · have hf := exec_frame h
    exact .inr ⟨hf.cfg, hf.valid_of_valid⟩
  · cases h
  · cases h
    exact .inr ⟨advance_cfg _, fun hv => (advance_valid _).trans hv⟩

/-! ### No command reads the old working state -/

/-- Two states that differ at most in `x` and in the count of free values. -/
def AgreeOffX (t t' : State) : Prop := { t' with x := t.x, draws := t.draws } = t

/-- Two outcomes that are next states and differ at most in `x` and in the count of free values. -/
def AnswerAgreeOffX (o o' : Host.Outcome State Fault Refusal) : Prop :=
  ∃ t t', o = .next t ∧ o' = .next t' ∧ AgreeOffX t t'

theorem initialise_agreeOffX (mode : Mode) (s : State) (x' : List Nibble) (d : Nat) :
    AnswerAgreeOffX (initialise mode s) (initialise mode { s with x := x', draws := d }) := by
  unfold initialise
  cases configCheck s.cfg with
  | none => exact ⟨_, _, rfl, rfl, rfl⟩
  | some e => exact ⟨_, _, rfl, rfl, rfl⟩

theorem processChunk_agreeOffX (dest : Dest) (c : Chunk) (s : State) (x' : List Nibble) (d : Nat) :
    AnswerAgreeOffX (processChunk dest c s) (processChunk dest c { s with x := x', draws := d }) := by
  cases dest with
  | push => exact ⟨_, _, rfl, rfl, rfl⟩
  | fin => exact ⟨_, _, rfl, rfl, rfl⟩

theorem whenValid_agreeOffX {s : State} {x' : List Nibble} {d : Nat} {o o' : Host.Outcome State Fault Refusal}
    (h : AnswerAgreeOffX o o') :
    AnswerAgreeOffX (whenValid s o) (whenValid { s with x := x', draws := d } o') := by
  rcases Bool.eq_false_or_eq_true s.valid with hv | hv
  · rwa [whenValid_valid hv, whenValid_valid (s := { s with x := x', draws := d }) hv]
  · rw [whenValid_fresh hv, whenValid_fresh (s := { s with x := x', draws := d }) hv]
    exact ⟨_, _, rfl, rfl, rfl⟩

theorem whenIdle_agreeOffX {s : State} {x' : List Nibble} {d : Nat} {o o' : Host.Outcome State Fault Refusal}
    (hq : s.seq = none) (h : AnswerAgreeOffX o o') :
    AnswerAgreeOffX (whenIdle s o) (whenIdle { s with x := x', draws := d } o') := by
  rwa [whenIdle_idle hq, whenIdle_idle (s := { s with x := x', draws := d }) hq]

/-- R24 for a command: what `x` holds when it starts has no part in what it does. -/
theorem exec_agreeOffX {i : Instr} (hi : i.isKeyOp = false) {s : State} (hq : s.seq = none) (x' : List Nibble)
    (d : Nat) : AnswerAgreeOffX (exec i s) (exec i { s with x := x', draws := d }) := by
  cases i with
  | initStd => exact whenIdle_agreeOffX hq (initialise_agreeOffX _ _ _ _)
  | initRnd => exact whenIdle_agreeOffX hq (initialise_agreeOffX _ _ _ _)
  | procPush c => exact whenIdle_agreeOffX hq (whenValid_agreeOffX (processChunk_agreeOffX _ _ _ _ _))
  | procFin c => exact whenIdle_agreeOffX hq (whenValid_agreeOffX (processChunk_agreeOffX _ _ _ _ _))
  | rdDig => exact whenIdle_agreeOffX hq (whenValid_agreeOffX ⟨_, _, rfl, rfl, rfl⟩)
  | _ => cases hi

/-- A step from idle with a request that names no command. -/
theorem step_undecodable {s : State} {bytes : List Byte} {rest : List Input} {why : Reject} (hq : s.seq = none)
    (hin : s.inputs = .command bytes :: rest) (hd : decode .command bytes = .error why) :
    step s = .refused (.undecodable why) := by
  simp [step, fetch_command hq hin, hd]

/-! ### The statements -/

/-- Settles O48: the reset arrays have the lengths of the default configuration, and the machine is idle. -/
theorem resetMeetsInvariant : Obligations.ResetMeetsInvariant := by
  unfold Obligations.ResetMeetsInvariant
  refine inv_of_idle ⟨List.length_replicate, ?_, List.length_replicate, List.length_replicate⟩ nofun rfl
  intro K hK
  rw [List.eq_of_mem_replicate hK]
  exact List.length_replicate

/-- Settles O49, by the ways a step can go (`step_inv`). -/
theorem everyStepKeepsInvariant : Obligations.EveryStepKeepsInvariant := fun _ _ => step_inv

/-- Settles O42: the one step that can clear `VALID` is the loss of power. -/
theorem configurationFixedAndOnlyPowerLossClearsValid :
    Obligations.ConfigurationFixedAndOnlyPowerLossClearsValid := by
  refine ⟨fun s t h => ?_, fun s t i h => ⟨(exec_frame h).cfg, (exec_frame h).valid_of_valid⟩⟩
  rcases step_powerLoss_or_keeps h with ⟨rest, hin, rfl⟩ | ⟨hcfg, hvalid⟩
  · exact ⟨rfl, fun _ _ => by rw [losePower_inputs, hin, List.tail_cons]⟩
  · exact ⟨hcfg, fun hv ht => absurd (hvalid hv) (by simp [ht])⟩

/-- Settles O43, each clause from the frame of an instruction (`exec_frame`). -/
theorem onlyTheNamedCommandsWriteState : Obligations.OnlyTheNamedCommandsWriteState := by
  intro s t i h
  have hf := exec_frame h
  refine ⟨fun hkl => ?_, fun hldn => ?_, fun hvalid => ?_, hf.inputs⟩
  · exact or_assoc.mp (hf.kl.resolve_left hkl)
  · exact or_assoc.mp (hf.ldn.resolve_left hldn)
  · exact (hf.valid.resolve_left hvalid).1

/-- Settles O44: an idle step waits, refuses the request by its bytes alone, or runs a command, and no command reads
`x`. -/
theorem commandsNeverReadOldWorkingState : Obligations.CommandsNeverReadOldWorkingState := by
  intro s x' d hq hp
  have hq' : ({ s with x := x', draws := d } : State).seq = none := hq
  rcases step_cases s with ⟨rest, hin, -⟩ | ⟨-, hin, hstep⟩ |
    ⟨bytes, rest, -, hin, ⟨why, hd, hstep⟩ | ⟨i, hd, hstep⟩⟩ | ⟨r, hr, -⟩
  · exact absurd (by rw [hin]; rfl) hp
  · exact .inl ⟨_, _, hstep, step_waiting hq' hin, rfl⟩
  · exact .inr ⟨_, hstep, step_undecodable hq' hin hd⟩
  · have hidle : ({ s with inputs := rest } : State).seq = none := hq
    rw [hstep, step_command hq' hin hd]
    exact .inl (exec_agreeOffX (isKeyOp_of_decode_command hd) hidle x' d)
  · rw [hq] at hr; cases hr

end Sys2Proof.Machine

/-! PROOFS of the family `20_memory.md`: the wires and nibbles of the working state, the order inside a phase, and
what a block run leaves alone (R51 to R54, R61, R62, R66, R316). -/

namespace Sys2Proof.Machine

/-! ### Wire writes -/

/-- Writing the value a wire holds changes nothing (R53). -/
theorem writeWire_readWire {x : List Nibble} {w : Nat} (hw : w / 4 < x.length) :
    writeWire x w (readWire x w) = x := by
  refine eq_of_readWire (length_writeWire _ _ _) fun w' _ => ?_
  rw [readWire_writeWire _ _ _ _ hw]
  split
  · next h => rw [h]
  · rfl

/-! ### The nibbles of a chunk -/

theorem getElem?_flatMap_pair_even (f g : Byte → Nibble) (l : List Byte) (i : Nat) :
    (l.flatMap fun b => [f b, g b])[2 * i]? = l[i]?.map f := by
  induction l generalizing i with
  | nil => rfl
  | cons b l ih =>
    cases i with
    | zero => rfl
    | succ i => exact ih i

theorem getElem?_flatMap_pair_odd (f g : Byte → Nibble) (l : List Byte) (i : Nat) :
    (l.flatMap fun b => [f b, g b])[2 * i + 1]? = l[i]?.map g := by
  induction l generalizing i with
  | nil => rfl
  | cons b l ih =>
    cases i with
    | zero => rfl
    | succ i => exact ih i

/-- The even nibbles of an unpacked chunk are the high ones (R200). -/
theorem getD_unpack_even (c : Chunk) (i : Nat) :
    (unpack c).getD (2 * i) 0#4 = highNibble (c.toList.getD i 0#8) := by
  rw [List.getD_eq_getElem?_getD, List.getD_eq_getElem?_getD, unpack, getElem?_flatMap_pair_even]
  cases c.toList[i]? <;> rfl

/-- The odd nibbles of an unpacked chunk are the low ones (R200). -/
theorem getD_unpack_odd (c : Chunk) (i : Nat) :
    (unpack c).getD (2 * i + 1) 0#4 = lowNibble (c.toList.getD i 0#8) := by
  rw [List.getD_eq_getElem?_getD, List.getD_eq_getElem?_getD, unpack, getElem?_flatMap_pair_odd]
  cases c.toList[i]? <;> rfl

theorem getLsbD_highNibble (b : Byte) {p : Nat} (hp : p < 4) : (highNibble b).getLsbD p = b.getLsbD (4 + p) := by
  simp [highNibble, hp]

theorem getLsbD_lowNibble (b : Byte) {p : Nat} (hp : p < 4) : (lowNibble b).getLsbD p = b.getLsbD p := by
  simp [lowNibble, hp]

/-! ### The gates of a sublayer do not meet (R112) -/

/-- The three wires of a gate differ. -/
theorem wire_ne_of_place_ne {size : Nat} (hs : legalSize size) (layer : Nat) (sub : Sublayer) {g k k' : Nat}
    (hg : g < size / 4) (hk : k < 3) (hk' : k' < 3) (hne : k ≠ k') :
    wire size layer sub g k ≠ wire size layer sub g k' := by
  obtain ⟨hpos, h8⟩ := hs
  rw [wire_eq ⟨hpos, h8⟩ layer sub hg hk, wire_eq ⟨hpos, h8⟩ layer sub hg hk']
  split <;> split <;> omega

/-- Two gates of one sublayer share no wire: their indices are at least a nibble apart on the ring, and the three
wires of a gate take less than a nibble. -/
theorem wire_ne_of_gate_ne {size : Nat} (hs : legalSize size) (layer : Nat) (sub : Sublayer) {g g' k k' : Nat}
    (hg : g < size / 4) (hg' : g' < size / 4) (hk : k < 3) (hk' : k' < 3) (hne : g ≠ g') :
    wire size layer sub g k ≠ wire size layer sub g' k' := by
  obtain ⟨hpos, h8⟩ := hs
  rw [wire_eq ⟨hpos, h8⟩ layer sub hg hk, wire_eq ⟨hpos, h8⟩ layer sub hg' hk']
  split <;> split <;> omega

section GateLocality

variable {size : Nat} (hs : legalSize size) (layer : Nat) (sub : Sublayer) (gate : Gate) {g : Nat} (hg : g < size / 4)
include hs hg

/-- What a wire holds after a gate step (R114 to R117, at the wires of R111). -/
theorem readWire_gateStep {x : List Nibble} (hx : x.length = size / 4) (v : Nat) :
    readWire (gateStep size layer sub gate g x) v =
      let out := gateOut gate (readWire x (wire size layer sub g 0)) (readWire x (wire size layer sub g 1))
        (readWire x (wire size layer sub g 2))
      if v = wire size layer sub g 0 then out.1
      else if v = wire size layer sub g 1 then out.2.1
      else if v = wire size layer sub g 2 then out.2.2
      else readWire x v :=
  have hin := wire_div_lt_length hs hx layer sub g
  have hne {k k'} := wire_ne_of_place_ne hs layer sub hg (k := k) (k' := k')
  readWire_applyGate gate (hin 0) (hin 1) (hin 2) (hne (by decide) (by decide) (by decide))
    (hne (by decide) (by decide) (by decide)) (hne (by decide) (by decide) (by decide)) v

/-- A gate step leaves every wire but its own three. -/
theorem readWire_gateStep_of_ne {x : List Nibble} (hx : x.length = size / 4) {v : Nat}
    (hv : ∀ k < 3, v ≠ wire size layer sub g k) :
    readWire (gateStep size layer sub gate g x) v = readWire x v := by
  rw [readWire_gateStep hs layer sub gate hg hx]
  simp only [hv 0 (by decide), hv 1 (by decide), hv 2 (by decide), if_false]

/-- A gate step reads no wire but its own three. -/
theorem readWire_gateStep_congr {x y : List Nibble} (hx : x.length = size / 4) (hy : y.length = size / 4) {v : Nat}
    (hxy : ∀ k < 3, readWire x (wire size layer sub g k) = readWire y (wire size layer sub g k))
    (hv : readWire x v = readWire y v) :
    readWire (gateStep size layer sub gate g x) v = readWire (gateStep size layer sub gate g y) v := by
  rw [readWire_gateStep hs layer sub gate hg hx, readWire_gateStep hs layer sub gate hg hy, hv,
    hxy 0 (by decide), hxy 1 (by decide), hxy 2 (by decide)]

/-- A wire that gate `g'` does not touch does not see whether `g'` ran before `g`. -/
theorem readWire_gateStep_gateStep (gate' : Gate) {g' : Nat} (hg' : g' < size / 4) (hne : g ≠ g') {x : List Nibble}
    (hx : x.length = size / 4) {v : Nat} (hv : ∀ k < 3, v ≠ wire size layer sub g' k) :
    readWire (gateStep size layer sub gate g (gateStep size layer sub gate' g' x)) v
      = readWire (gateStep size layer sub gate g x) v := by
  have huntouched {v : Nat} := readWire_gateStep_of_ne hs layer sub gate' hg' hx (v := v)
  refine readWire_gateStep_congr hs layer sub gate hg (by rw [length_gateStep, hx]) hx (fun k hk => ?_) (huntouched hv)
  exact huntouched fun k' hk' => wire_ne_of_gate_ne hs layer sub hg hg' hk hk' hne

/-- Two gates of one sublayer commute (R62). -/
theorem gateStep_comm (gate' : Gate) {g' : Nat} (hg' : g' < size / 4) (hne : g ≠ g') {x : List Nibble}
    (hx : x.length = size / 4) :
    gateStep size layer sub gate g (gateStep size layer sub gate' g' x)
      = gateStep size layer sub gate' g' (gateStep size layer sub gate g x) := by
  refine eq_of_readWire (by simp) fun v _ => ?_
  by_cases hv : ∀ k < 3, v ≠ wire size layer sub g' k
  · rw [readWire_gateStep_gateStep hs layer sub gate hg gate' hg' hne hx hv,
      readWire_gateStep_of_ne hs layer sub gate' hg' (by rw [length_gateStep, hx]) hv]
  · have hv' : ∀ k < 3, v ≠ wire size layer sub g k := by
      push Not at hv
      obtain ⟨k', hk', rfl⟩ := hv
      exact fun k hk => wire_ne_of_gate_ne hs layer sub hg' hg hk' hk hne.symm
    rw [readWire_gateStep_gateStep hs layer sub gate' hg' gate hg hne.symm hx hv',
      readWire_gateStep_of_ne hs layer sub gate hg (by rw [length_gateStep, hx]) hv']

end GateLocality

theorem keyGate_comm {size : Nat} (hs : legalSize size) (layer : Nat) (sub : Sublayer) (K : List Nibble) {g g' : Nat}
    (hg : g < size / 4) (hg' : g' < size / 4) {x : List Nibble} (hx : x.length = size / 4) :
    keyGate size layer sub K (keyGate size layer sub K x g) g'
      = keyGate size layer sub K (keyGate size layer sub K x g') g := by
  by_cases hne : g' = g
  · rw [hne]
  · exact gateStep_comm hs layer sub _ hg' _ hg hne hx

/-- Two `MIX` operations on different nibbles commute. -/
theorem mixNibble_comm {g g' : Nat} (hne : g ≠ g') (k k' : Nibble) (x : List Nibble) :
    mixNibble g k (mixNibble g' k' x) = mixNibble g' k' (mixNibble g k x) := by
  simp only [mixNibble, List.getD_eq_getElem?_getD, List.getElem?_set_ne hne, List.getElem?_set_ne hne.symm]
  exact List.set_comm _ _ hne.symm

/-- `List.Perm.foldl_eq'` for steps that commute on the arrays of one length only and keep that length. -/
theorem foldl_perm_of_length {f : List Nibble → Nat → List Nibble} {n : Nat}
    (hlen : ∀ y b, (f y b).length = y.length) {l l' : List Nat} (hp : l.Perm l')
    (hcomm : ∀ a ∈ l, ∀ b ∈ l, ∀ y : List Nibble, y.length = n → f (f y a) b = f (f y b) a)
    {x : List Nibble} (hx : x.length = n) : l.foldl f x = l'.foldl f x := by
  induction hp generalizing x with
  | nil => rfl
  | cons a _ ih =>
    exact ih (fun b hb c hc => hcomm b (.tail _ hb) c (.tail _ hc)) ((hlen x a).trans hx)
  | swap a b l =>
    rw [List.foldl_cons, List.foldl_cons, List.foldl_cons, List.foldl_cons, hcomm b (by simp) a (by simp) x hx]
  | trans hp _ ih ih' =>
    exact (ih hcomm hx).trans
      (ih' (fun b hb c hc => hcomm b (hp.mem_iff.mpr hb) c (hp.mem_iff.mpr hc)) hx)

/-! ### A block run short of its end -/

/-- The place of a phase in a round (R140). -/
def phaseIndex : Phase → Nat
  | .mix => 0
  | .s1 => 1
  | .s2 => 2

/-- How many key nibbles of a block run stand before the sequencer's position (R25, R150). -/
def positionIndex (n : Nat) (r : BlockRun) : Nat := (3 * r.layer + phaseIndex r.phase) * n + r.g

/-- A position that is not the last has a next one, one key nibble further on. -/
theorem nextPosition_of_lt {n depth : Nat} {r : BlockRun} (hg : r.g < n)
    (hlt : positionIndex n r + 1 < 3 * n * depth) :
    ∃ r', nextPosition n depth r = some r' ∧ positionIndex n r' = positionIndex n r + 1 := by
  obtain ⟨layer, phase, g, dest⟩ := r
  by_cases hrow : g + 1 < n
  · exact ⟨⟨layer, phase, g + 1, dest⟩, by simp [nextPosition, hrow], rfl⟩
  · obtain rfl : n = g + 1 := Nat.le_antisymm (not_lt.mp hrow) hg
    cases phase with
    | mix =>
      exact ⟨⟨layer, .s1, 0, dest⟩, by simp [nextPosition],
        by simp only [positionIndex, phaseIndex]; ring⟩
    | s1 =>
      exact ⟨⟨layer, .s2, 0, dest⟩, by simp [nextPosition],
        by simp only [positionIndex, phaseIndex]; ring⟩
    | s2 =>
      have hround : positionIndex (g + 1) ⟨layer, .s2, g, dest⟩ + 1 = 3 * (g + 1) * (layer + 1) := by
        simp only [positionIndex, phaseIndex]; ring
      have hlayer : layer + 1 < depth := Nat.lt_of_mul_lt_mul_left (hround ▸ hlt)
      refine ⟨⟨layer + 1, .mix, 0, dest⟩, by simp [nextPosition, hlayer], ?_⟩
      rw [hround]
      simp only [positionIndex, phaseIndex]
      ring

/-- The state in which a block run begins meets the invariant. -/
theorem beginBlock_inv (dest : Dest) (c : Chunk) {s : State} (hs : s.Inv) (hv : s.valid = true) :
    (beginBlock dest c s).Inv := by
  have hn : s.cfg.n = 64 := hs.n_eq_of_valid hv
  obtain ⟨⟨hkl, hK, hldn, -⟩, -, hcfg, -⟩ := hs
  refine ⟨⟨hkl, hK, hldn, (length_unpack c).trans hn.symm⟩, ?_, hcfg, fun _ => hv⟩
  rintro _ ⟨⟩
  exact ⟨(hcfg hv).1, by simp [hn]⟩

/-- A step of a block run that is not its last writes `x` and moves the sequencer one key nibble on. -/
theorem step_running_of_lt {s : State} {r : BlockRun} (hs : s.Inv) (hr : s.seq = some r) (hp : s.Powered)
    (hlt : positionIndex s.cfg.n r + 1 < 3 * s.cfg.n * s.cfg.depth) :
    ∃ r' x', positionIndex s.cfg.n r' = positionIndex s.cfg.n r + 1 ∧
      step s = .next { s with x := x', seq := some r' } := by
  obtain ⟨⟨hkl, hK, -⟩, hseq, -⟩ := hs
  obtain ⟨hlayer, hg⟩ := hseq r hr
  obtain ⟨r', hnext, hindex⟩ := nextPosition_of_lt hg hlt
  have hk := keyNibble?_isSome hK (hkl ▸ hlayer) hg
  have hadvance (x' : List Nibble) : advance { s with x := x' } = { s with x := x', seq := some r' } := by
    simp only [advance, hr, hnext]
  exact ⟨r', _, hindex, (step_running hr hp hk).trans (congrArg _ (hadvance _))⟩

theorem runSteps_succ {s t : State} (h : step s = .next t) (k : Nat) : runSteps (k + 1) s = runSteps k t := by
  simp only [runSteps, h]

/-- Any number of steps of a block run short of its end: the run is still on, and only `x` and the sequencer have
changed. -/
theorem runSteps_running_of_lt {s : State} {r : BlockRun} {j : Nat} (hs : s.Inv) (hr : s.seq = some r)
    (hp : s.Powered) (hlt : positionIndex s.cfg.n r + j < 3 * s.cfg.n * s.cfg.depth) :
    ∃ r' x', runSteps j s = .next { s with x := x', seq := some r' } := by
  induction j generalizing s r with
  | zero => exact ⟨r, s.x, by rw [← hr]; rfl⟩
  | succ j ih =>
    obtain ⟨r₁, x₁, hindex, hstep⟩ := step_running_of_lt hs hr hp (by omega)
    obtain ⟨r', x', hrun⟩ := ih (step_inv hs hstep) rfl hp (by simp only [hindex]; omega)
    exact ⟨r', x', (runSteps_succ hstep j).trans hrun⟩

/-! ### The statements -/

/-- Settles O5: bit by bit of the written nibble (`getLsbD_putBit`), wire by wire for the last clause. -/
theorem wireWriteChangesExactlyOneWire : Obligations.WireWriteChangesExactlyOneWire := by
  intro x w b hw
  have hmod : w % 4 < 4 := Nat.mod_lt _ (by decide)
  refine ⟨length_writeWire x w b, fun j hj => List.getElem?_set_ne hj.symm, ?_, writeWire_readWire hw⟩
  refine ⟨putBit (x.getD (w / 4) 0#4) (w % 4) b, List.getElem?_set_self hw, ?_, fun p hp hne => ?_⟩
  · rw [getLsbD_putBit _ _ _ _ hmod hmod, if_pos rfl]
  · rw [getLsbD_putBit _ _ _ _ hmod hp, if_neg hne]

/-- Settles O6: the nibble of wire `w` is the high one of byte `w / 8` when its index is even, else the low one. -/
theorem unpackedChunkBitsLandOnWires : Obligations.UnpackedChunkBitsLandOnWires := by
  intro c w _
  have hmod : w % 4 < 4 := Nat.mod_lt _ (by decide)
  unfold readWire
  by_cases heven : w / 4 % 2 = 0
  · have hnibble : w / 4 = 2 * (w / 8) := by omega
    rw [if_pos heven, hnibble, getD_unpack_even, getLsbD_highNibble _ hmod]
  · have hnibble : w / 4 = 2 * (w / 8) + 1 := by omega
    rw [if_neg heven, hnibble, getD_unpack_odd, getLsbD_lowNibble _ hmod]

/-- Settles O19: the operations of one phase commute, because no two of them meet in a nibble (`MIX`) or in a wire
(the sublayers). -/
theorem phaseResultIndependentOfOrder : Obligations.PhaseResultIndependentOfOrder := by
  intro size layer K x order hs hx hperm
  have hlt : ∀ g ∈ order, g < size / 4 := fun g hg => List.mem_range.mp (hperm.mem_iff.mp hg)
  refine ⟨hperm.foldl_eq' (fun g _ g' _ y => ?_) x, fun sub => ?_⟩
  · by_cases hne : g' = g
    · rw [hne]
    · exact mixNibble_comm hne _ _ y
  · exact foldl_perm_of_length (length_keyGate size layer sub K) hperm
      (fun g hg g' hg' y hy => keyGate_comm hs layer sub K (hlt g hg) (hlt g' hg') hy) hx

/-- Settles O24: the first position of a block run has index 0, and each step short of the end keeps the frame
(`runSteps_running_of_lt`). -/
theorem blockRunWritesOnlyWorkingState : Obligations.BlockRunWritesOnlyWorkingState := by
  intro s dest c j hs hv _ hp hj
  have hstart : positionIndex s.cfg.n ⟨0, .mix, 0, dest⟩ = 0 := by simp [positionIndex, phaseIndex]
  obtain ⟨r', x', hrun⟩ := runSteps_running_of_lt (j := j) (beginBlock_inv dest c hs hv)
    (beginBlock_seq dest c s) hp (by rw [beginBlock_cfg, hstart]; omega)
  exact ⟨_, hrun, rfl, rfl⟩

end Sys2Proof.Machine

/-! PROOFS of the family `30_encoding.md`: the decoder and the encoder of the two word formats (R81, R82, R83, R89). -/

namespace Sys2Proof

open SpecTables

/-! ### Format `K`: a gate row of either sublayer -/

/-- The key nibble of a gate of a sublayer, with the two bits its row does not constrain (R81). -/
def keyOf (sub : Sublayer) (gate : Gate) (free : BitVec 2) : Nibble :=
  match sub with
  | .s1 => keyOfS1 gate free
  | .s2 => keyOfS2 gate free

/-- The two bits of a key nibble that the rows of a sublayer do not constrain: the gate field of the other one (R81). -/
def freeField (sub : Sublayer) (k : Nibble) : BitVec 2 :=
  match sub with
  | .s1 => gateField .s2 k
  | .s2 => gateField .s1 k

@[simp] theorem gateField_keyOf (sub : Sublayer) (gate : Gate) (free : BitVec 2) :
    gateField sub (keyOf sub gate free) = typeOfGate gate := by
  cases sub
  · exact gateField_s1_keyOfS1 gate free
  · exact gateField_s2_keyOfS2 gate free

@[simp] theorem freeField_keyOf (sub : Sublayer) (gate : Gate) (free : BitVec 2) :
    freeField sub (keyOf sub gate free) = free := by
  cases sub
  · exact gateField_s2_keyOfS1 gate free
  · exact gateField_s1_keyOfS2 gate free

/-- A key nibble is its gate field and its free field, and nothing more. -/
theorem keyOf_gateField_freeField (sub : Sublayer) (k : Nibble) :
    keyOf sub (gateOfType (gateField sub k)) (freeField sub k) = k := by
  cases sub <;> revert k <;> decide

/-- In a sublayer's phase a key nibble decodes to the gate of its gate field (R81, R82). -/
theorem decodeKey_slotPhase (sub : Sublayer) (layer g : Nat) (k : Nibble) :
    decodeKey layer (slotPhase sub) g k
      = gateInstr sub (gateOfType (gateField sub k)) layer g (freeField sub k) := by
  cases sub
  case s1 =>
    simp only [decodeKey, slotPhase, freeField]
    cases gateOfType (gateField .s1 k) <;> rfl
  case s2 =>
    simp only [decodeKey, slotPhase, freeField]
    cases gateOfType (gateField .s2 k) <;> rfl

theorem encode_gateInstr (sub : Sublayer) (gate : Gate) (layer g : Nat) (free : BitVec 2) :
    encode (gateInstr sub gate layer g free) = (.key layer (slotPhase sub) g, [keyByte (keyOf sub gate free)]) := by
  cases sub <;> cases gate <;> rfl

theorem decode_encode_gateInstr (sub : Sublayer) (gate : Gate) (layer g : Nat) (free : BitVec 2) :
    decode (encode (gateInstr sub gate layer g free)).1 (encode (gateInstr sub gate layer g free)).2
      = .ok (gateInstr sub gate layer g free) := by
  rw [encode_gateInstr, decode_key_keyByte, decodeKey_slotPhase, gateField_keyOf, gateOfType_typeOfGate,
    freeField_keyOf]

theorem encode_decodeKey_slotPhase (sub : Sublayer) (layer g : Nat) (k : Nibble) :
    encode (decodeKey layer (slotPhase sub) g k) = (.key layer (slotPhase sub) g, [keyByte k]) := by
  rw [decodeKey_slotPhase, encode_gateInstr, keyOf_gateField_freeField]

/-- What a key nibble decodes to, in any phase, encodes back to it. -/
theorem encode_decodeKey (layer : Nat) (phase : Phase) (g : Nat) (k : Nibble) :
    encode (decodeKey layer phase g k) = (.key layer phase g, [keyByte k]) := by
  cases phase with
  | mix => rfl
  | s1 => exact encode_decodeKey_slotPhase .s1 layer g k
  | s2 => exact encode_decodeKey_slotPhase .s2 layer g k

theorem keyByte_setWidth {b : Byte} (hb : b.toNat < 16) : keyByte (b.setWidth 4) = b := by
  apply BitVec.eq_of_toNat_eq
  rw [keyByte, BitVec.toNat_setWidth, BitVec.toNat_setWidth]
  omega

/-- In the key window only the byte of a key nibble is decoded (R86). -/
theorem decode_key_ok {layer g : Nat} {phase : Phase} {bytes : List Byte} {i : Instr}
    (h : decode (.key layer phase g) bytes = .ok i) :
    ∃ k, bytes = [keyByte k] ∧ i = decodeKey layer phase g k := by
  simp only [decode] at h
  split at h
  · next b =>
    split at h
    · next hb => cases h; exact ⟨b.setWidth 4, by rw [keyByte_setWidth hb], rfl⟩
    · cases h
  · cases h

/-! ### Format `CMD` -/

theorem decodeBare_ok_arg {i j : Instr} {arg : List Byte} (h : decodeBare i arg = .ok j) : arg = [] := by
  cases arg with
  | nil => rfl
  | cons b bs => cases h

/-- `decodeChunk_ok`, with where the chunk comes from. -/
theorem decodeChunk_ok_arg {make : Chunk → Instr} {arg : List Byte} {j : Instr} (h : decodeChunk make arg = .ok j) :
    ∃ c : Chunk, arg = c.toList ∧ j = make c := by
  unfold decodeChunk at h
  split at h
  · cases h; exact ⟨_, rfl, rfl⟩
  · cases h

/-- A request that decodes is the encoding of its command: the whole first byte is the code, and the argument is the
chunk or empty (R89). -/
theorem encode_of_decodeCommand {bytes : List Byte} {i : Instr} (h : decodeCommand bytes = .ok i) :
    encode i = (.command, bytes) := by
  cases bytes with
  | nil => cases h
  | cons b arg =>
    have code {c : Byte} (hb : b.toNat = c.toNat) : b = c := BitVec.eq_of_toNat_eq hb
    simp only [decodeCommand] at h
    split at h
    · next hb => rw [code (c := 0) hb, decodeBare_ok h, decodeBare_ok_arg h]; rfl
    · next hb => rw [code (c := 1) hb, decodeBare_ok h, decodeBare_ok_arg h]; rfl
    · next hb => obtain ⟨c, rfl, rfl⟩ := decodeChunk_ok_arg h; rw [code (c := 2) hb]; rfl
    · next hb => obtain ⟨c, rfl, rfl⟩ := decodeChunk_ok_arg h; rw [code (c := 3) hb]; rfl
    · next hb => rw [code (c := 4) hb, decodeBare_ok h, decodeBare_ok_arg h]; rfl
    · split at h <;> cases h

/-- Codes 5, 6 and 7 name no command, whatever stands after them (R89). -/
theorem decode_command_spare {b : Byte} (arg : List Byte) (hlo : 5 ≤ b.toNat) (hhi : b.toNat < 8) :
    decode .command (b :: arg) = .error (.noCommand (BitVec.ofNat 3 b.toNat)) := by
  obtain hb | hb | hb : b.toNat = 5 ∨ b.toNat = 6 ∨ b.toNat = 7 := by omega
  all_goals simp only [decode, decodeCommand, hb]; rfl

/-! ### Both formats -/

theorem decode_encode (i : Instr) : decode (encode i).1 (encode i).2 = .ok i := by
  cases i with
  | mix layer g k => exact decode_key_keyByte layer .mix g k
  | s1TofR layer g gt2 => exact decode_encode_gateInstr .s1 .tofR layer g gt2
  | s1FreR layer g gt2 => exact decode_encode_gateInstr .s1 .freR layer g gt2
  | s1TofM layer g gt2 => exact decode_encode_gateInstr .s1 .tofM layer g gt2
  | s1FreM layer g gt2 => exact decode_encode_gateInstr .s1 .freM layer g gt2
  | s2TofR layer g gt1 => exact decode_encode_gateInstr .s2 .tofR layer g gt1
  | s2FreR layer g gt1 => exact decode_encode_gateInstr .s2 .freR layer g gt1
  | s2TofM layer g gt1 => exact decode_encode_gateInstr .s2 .tofM layer g gt1
  | s2FreM layer g gt1 => exact decode_encode_gateInstr .s2 .freM layer g gt1
  | initStd => rfl
  | initRnd => rfl
  | procPush chunk => exact decodeChunk_toList .procPush chunk
  | procFin chunk => exact decodeChunk_toList .procFin chunk
  | rdDig => rfl

theorem encode_of_decode {slot : Slot} {bytes : List Byte} {i : Instr} (h : decode slot bytes = .ok i) :
    encode i = (slot, bytes) := by
  cases slot with
  | command => exact encode_of_decodeCommand h
  | key layer phase g =>
    obtain ⟨k, rfl, rfl⟩ := decode_key_ok h
    exact encode_decodeKey layer phase g k

/-! ### The rows of the table of R83 -/

/-- A row of the spec's table: its byte is that of its nibble, and its gates are those of the two gate fields. -/
theorem keyTable_row : ∀ row ∈ keyTable,
    BitVec.ofNat 8 row.1 = keyByte (BitVec.ofNat 4 row.1) ∧
    gateOfType (gateField .s1 (BitVec.ofNat 4 row.1)) = row.2.1 ∧
    gateOfType (gateField .s2 (BitVec.ofNat 4 row.1)) = row.2.2 := by decide

/-! ### The statements -/

/-- Settles O3: an encoded word decodes back by the constructors of `Instr`, a decoded one encodes back by the format
of its place. -/
theorem decodeAndEncodeAreInverse : Obligations.DecodeAndEncodeAreInverse :=
  ⟨decode_encode, fun _ _ _ => encode_of_decode⟩

/-- Settles O1: the decoder reads the gate of the phase's field (`decodeKey_slotPhase`), which is the row's gate. -/
theorem keyNibbleDecodesAsTable : Obligations.KeyNibbleDecodesAsTable := by
  intro layer g row hrow
  obtain ⟨hbyte, hs1, hs2⟩ := keyTable_row row hrow
  simp only [hbyte, decode_key_keyByte]
  refine ⟨rfl, congrArg _ ?_, congrArg _ ?_⟩
  · rw [← hs1]; exact decodeKey_slotPhase .s1 layer g _
  · rw [← hs2]; exact decodeKey_slotPhase .s2 layer g _

/-- Settles O4: the decoder rejects the request by its first byte, and an idle machine refuses what it rejects. -/
theorem spareCodesNameNoCommand : Obligations.SpareCodesNameNoCommand :=
  fun _ _ arg _ hidle hin hlo hhi => Machine.step_undecodable hidle hin (decode_command_spare arg hlo hhi)

end Sys2Proof

/-! PROOFS of the family `40_gates.md`: where the wires of a gate lie, and what a gate step does to them (R111 to R120,
R123). -/

namespace Sys2Proof.Machine

open SpecTables

/-! ### Where the wires of a gate lie (R111) -/

/-- The wires of S1 need no reduction: they stay in the nibble of their gate. -/
theorem wire_s1 {size : Nat} (hs : legalSize size) (layer : Nat) {g k : Nat} (hg : g < size / 4) (hk : k < 3) :
    wire size layer .s1 g k = 4 * g + layer % 2 + k := by
  obtain ⟨-, h8⟩ := hs
  rw [wire, subOffset, Nat.mod_eq_of_lt (by omega)]
  omega

/-- The bit of its nibble at which a wire lies: the ring is made of whole nibbles, so the reduction plays no part. -/
theorem wire_mod_four {size : Nat} (hs : legalSize size) (layer : Nat) (sub : Sublayer) (g k : Nat) :
    wire size layer sub g k % 4 = (layer % 2 + subOffset sub + k) % 4 := by
  obtain ⟨-, h8⟩ := hs
  rw [wire, Nat.mod_mod_of_dvd _ (Nat.dvd_of_mod_eq_zero (by omega))]
  omega

/-- The nibble in which a wire of S2 lies: its gate's, or the next one on the ring. -/
theorem wire_s2_div_four {size : Nat} (hs : legalSize size) (layer : Nat) {g k : Nat} (hg : g < size / 4)
    (hk : k < 3) :
    wire size layer .s2 g k / 4 = if layer % 2 + k < 2 then g else (g + 1) % (size / 4) := by
  have h8 := hs.2
  rw [wire_eq hs layer .s2 hg hk, mod_of_lt_double (a := g + 1) (m := size / 4) (by omega), subOffset]
  split <;> split
  · omega
  · rw [if_pos (by omega)]; omega
  · omega
  · rw [if_neg (by omega)]; omega

/-- A gate index counts on the ring of the `N` gates of a sublayer. -/
theorem wire_gate_mod {size : Nat} (hs : legalSize size) (layer : Nat) (sub : Sublayer) (g k : Nat) :
    wire size layer sub (g % (size / 4)) k = wire size layer sub g k := by
  obtain ⟨-, h8⟩ := hs
  have hring : g % (size / 4) * 4 ≡ g * 4 [MOD size] := by
    have hsize : size / 4 * 4 = size := by omega
    simpa only [hsize] using (Nat.mod_modEq g (size / 4)).mul_right' 4
  exact ((hring.add_right _).add_right _).add_right _

theorem gates_pos {size : Nat} (hs : legalSize size) : 0 < size / 4 := by
  obtain ⟨hpos, h8⟩ := hs
  omega

/-- A gate step for any `g` is the one for its place on the ring, where `g < N` (log entry 10). -/
theorem gateStep_gate_mod {size : Nat} (hs : legalSize size) (layer : Nat) (sub : Sublayer) (gate : Gate) (g : Nat)
    (x : List Nibble) : gateStep size layer sub gate (g % (size / 4)) x = gateStep size layer sub gate g x := by
  simp only [gateStep, wire_gate_mod hs]

/-! ### The outputs of a gate

First as the source rows word them: the row's condition, and what it does to the row's targets (R114 to R117). -/

theorem gateOut_tofR (a b c : Bool) : gateOut .tofR a b c = (a, b, if a && b then !c else c) := by
  revert a b c; decide

theorem gateOut_tofM (a b c : Bool) : gateOut .tofM a b c = (if b && c then !a else a, b, c) := by
  revert a b c; decide

theorem gateOut_freR (a b c : Bool) :
    gateOut .freR a b c = (a, if a && (b != c) then c else b, if a && (b != c) then b else c) := by
  revert a b c; decide

theorem gateOut_freM (a b c : Bool) :
    gateOut .freM a b c = (if c && (a != b) then b else a, if c && (a != b) then a else b, c) := by
  revert a b c; decide

/-- R120, the condition: `TOF.M` fires when `TOF.R` does on the reversed inputs. -/
theorem gateFires_tofM (a b c : Bool) : gateFires .tofM a b c = gateFires .tofR c b a := Bool.and_comm b c

/-- R120, the condition: `FRE.M` fires when `FRE.R` does on the reversed inputs. -/
theorem gateFires_freM (a b c : Bool) : gateFires .freM a b c = gateFires .freR c b a :=
  congrArg (c && ·) bne_comm

/-- R119: a gate undoes itself. -/
theorem gateOut_gateOut (gate : Gate) (a b c : Bool) :
    gateOut gate (gateOut gate a b c).1 (gateOut gate a b c).2.1 (gateOut gate a b c).2.2 = (a, b, c) := by
  revert a b c; cases gate <;> decide

/-- R118: the outputs, read as one number, are the truth table's entry. -/
theorem gateOut_truthTable (gate : Gate) (a b c : Bool) :
    4 * (gateOut gate a b c).1.toNat + 2 * (gateOut gate a b c).2.1.toNat + (gateOut gate a b c).2.2.toNat
      = (truthTable gate).getD (4 * a.toNat + 2 * b.toNat + c.toNat) 0 := by
  revert a b c; cases gate <;> decide

/-- R123: bit by bit, the tabulated map is the gate on the bits `j`, `j + 1`, `j + 2` with `j` the round's parity. -/
theorem getLsbD_nibbleMap (layer : Nat) (gate : Gate) (a : Nibble) {p : Nat} (hp : p < 4) :
    (nibbleMap layer gate a).getLsbD p =
      let j := layer % 2
      let out := gateOut gate (a.getLsbD j) (a.getLsbD (j + 1)) (a.getLsbD (j + 2))
      if p = j then out.1 else if p = j + 1 then out.2.1 else if p = j + 2 then out.2.2 else a.getLsbD p := by
  rcases Nat.mod_two_eq_zero_or_one layer with hj | hj
  all_goals
    simp only [nibbleMap, hj]
    revert a p
    cases gate <;> decide

/-! ### A gate step with any gate index -/

section GateStep

variable {size : Nat} (hs : legalSize size) (layer : Nat) (sub : Sublayer) (gate : Gate) (g : Nat)
include hs

/-- `wire_ne_of_place_ne` for any gate index. -/
theorem wire_place_ne {k k' : Nat} (hk : k < 3) (hk' : k' < 3) (hne : k ≠ k') :
    wire size layer sub g k ≠ wire size layer sub g k' := by
  rw [← wire_gate_mod hs layer sub g k, ← wire_gate_mod hs layer sub g k']
  exact wire_ne_of_place_ne hs layer sub (Nat.mod_lt _ (gates_pos hs)) hk hk' hne

theorem wires_differ :
    wire size layer sub g 0 ≠ wire size layer sub g 1 ∧ wire size layer sub g 0 ≠ wire size layer sub g 2 ∧
      wire size layer sub g 1 ≠ wire size layer sub g 2 :=
  ⟨wire_place_ne hs layer sub g (by decide) (by decide) (by decide),
    wire_place_ne hs layer sub g (by decide) (by decide) (by decide),
    wire_place_ne hs layer sub g (by decide) (by decide) (by decide)⟩

variable {x : List Nibble} (hx : x.length = size / 4) (v : Nat)
include hx

/-- `readWire_gateStep` for any gate index. -/
theorem readWire_gateStep_gate :
    readWire (gateStep size layer sub gate g x) v =
      let out := gateOut gate (readWire x (wire size layer sub g 0)) (readWire x (wire size layer sub g 1))
        (readWire x (wire size layer sub g 2))
      if v = wire size layer sub g 0 then out.1
      else if v = wire size layer sub g 1 then out.2.1
      else if v = wire size layer sub g 2 then out.2.2
      else readWire x v := by
  rw [← gateStep_gate_mod hs, readWire_gateStep hs layer sub gate (Nat.mod_lt _ (gates_pos hs)) hx]
  simp only [wire_gate_mod hs]

/-- What the three wires of a gate step hold after it. -/
theorem readWire_gateStep_wires :
    (readWire (gateStep size layer sub gate g x) (wire size layer sub g 0),
      readWire (gateStep size layer sub gate g x) (wire size layer sub g 1),
      readWire (gateStep size layer sub gate g x) (wire size layer sub g 2))
      = gateOut gate (readWire x (wire size layer sub g 0)) (readWire x (wire size layer sub g 1))
          (readWire x (wire size layer sub g 2)) := by
  obtain ⟨h01, h02, h12⟩ := wires_differ hs layer sub g
  simp only [readWire_gateStep_gate hs layer sub gate g hx, h01.symm, h02.symm, h12.symm, if_true, if_false]

/-- R119: a gate step undoes itself. -/
theorem gateStep_gateStep :
    gateStep size layer sub gate g (gateStep size layer sub gate g x) = x := by
  have hx' : (gateStep size layer sub gate g x).length = size / 4 := by rw [length_gateStep, hx]
  have houts := readWire_gateStep_wires hs layer sub gate g hx
  have hback := gateOut_gateOut gate (readWire x (wire size layer sub g 0)) (readWire x (wire size layer sub g 1))
    (readWire x (wire size layer sub g 2))
  rw [← houts] at hback
  refine eq_of_readWire (by simp) fun v _ => ?_
  rw [readWire_gateStep_gate hs layer sub gate g hx', hback]
  split_ifs with h0 h1 h2
  · rw [h0]
  · rw [h1]
  · rw [h2]
  · simp only [readWire_gateStep_gate hs layer sub gate g hx, h0, h1, h2, if_false]

end GateStep

/-- In S1 of a gate `g < N` the step is the tabulated map on nibble `g` (R123): the gate's wires are the nibble's bits
`j`, `j + 1`, `j + 2`, with `j` the round's parity. -/
theorem gateStep_s1_eq_nibbleMap {size : Nat} (hs : legalSize size) (layer : Nat) (gate : Gate) {g : Nat}
    (hg : g < size / 4) {x : List Nibble} (hx : x.length = size / 4) :
    gateStep size layer .s1 gate g x = x.set g (nibbleMap layer gate (x.getD g 0#4)) := by
  have hw {k : Nat} (hk : k < 3) : wire size layer .s1 g k = 4 * g + (layer % 2 + k) := by
    rw [wire_s1 hs layer hg hk, Nat.add_assoc]
  have hbit {p : Nat} (hp : p < 4) : readWire x (4 * g + p) = (x.getD g 0#4).getLsbD p := by
    rw [readWire, show (4 * g + p) / 4 = g by omega, show (4 * g + p) % 4 = p by omega]
  refine eq_of_readWire (by simp) fun v _ => ?_
  by_cases hv : v / 4 = g
  · obtain ⟨p, hp, rfl⟩ : ∃ p < 4, v = 4 * g + p := ⟨v % 4, Nat.mod_lt _ (by decide), by omega⟩
    have hset : readWire (x.set g (nibbleMap layer gate (x.getD g 0#4))) (4 * g + p)
        = (nibbleMap layer gate (x.getD g 0#4)).getLsbD p := by
      rw [readWire, hv, show (4 * g + p) % 4 = p by omega, List.getD_eq_getElem?_getD,
        List.getElem?_set_self (hx ▸ hg), Option.getD_some]
    rw [hset, getLsbD_nibbleMap layer gate _ hp, readWire_gateStep_gate hs layer .s1 gate g hx]
    simp only [hw (k := 0) (by decide), hw (k := 1) (by decide), hw (k := 2) (by decide), Nat.add_left_cancel_iff,
      Nat.add_zero]
    rw [hbit (by omega), hbit (by omega), hbit (by omega), hbit hp]
  · rw [readWire_gateStep_of_ne hs layer .s1 gate hg hx fun k hk => by rw [hw hk]; omega]
    simp only [readWire, List.getD_eq_getElem?_getD, List.getElem?_set_ne (Ne.symm hv)]

/-! ### The operations of format `K` -/

theorem keyEffect_gateInstr (size : Nat) (sub : Sublayer) (gate : Gate) (layer g : Nat) (bits : BitVec 2)
    (x : List Nibble) : keyEffect size (gateInstr sub gate layer g bits) x = gateStep size layer sub gate g x := by
  cases sub <;> cases gate <;> rfl

theorem isKeyOp_gateInstr (sub : Sublayer) (gate : Gate) (layer g : Nat) (bits : BitVec 2) :
    (gateInstr sub gate layer g bits).isKeyOp = true := by
  cases sub <;> cases gate <;> rfl

/-- A gate instruction writes `x` by its gate step and nothing else; the two bits its row leaves open play no part. -/
theorem exec_gateInstr (s : State) (sub : Sublayer) (gate : Gate) (layer g : Nat) (bits : BitVec 2) :
    exec (gateInstr sub gate layer g bits) s
      = .next { s with x := gateStep s.cfg.size layer sub gate g s.x } := by
  rw [exec_keyOp (isKeyOp_gateInstr sub gate layer g bits), keyEffect_gateInstr]

theorem decode_keyOf (sub : Sublayer) (gate : Gate) (layer g : Nat) (bits : BitVec 2) :
    decode (.key layer (slotPhase sub) g) [keyByte (keyOf sub gate bits)]
      = .ok (gateInstr sub gate layer g bits) := by
  simpa only [encode_gateInstr] using decode_encode_gateInstr sub gate layer g bits

/-- Every operation of format `K` is `MIX` or a gate of a sublayer (R90). -/
theorem mix_or_gateInstr_of_isKeyOp {i : Instr} (h : i.isKeyOp = true) :
    (∃ layer g k, i = .mix layer g k) ∨ ∃ sub gate layer g bits, i = gateInstr sub gate layer g bits := by
  cases i with
  | mix => exact .inl ⟨_, _, _, rfl⟩
  | s1TofR => exact .inr ⟨.s1, .tofR, _, _, _, rfl⟩
  | s1FreR => exact .inr ⟨.s1, .freR, _, _, _, rfl⟩
  | s1TofM => exact .inr ⟨.s1, .tofM, _, _, _, rfl⟩
  | s1FreM => exact .inr ⟨.s1, .freM, _, _, _, rfl⟩
  | s2TofR => exact .inr ⟨.s2, .tofR, _, _, _, rfl⟩
  | s2FreR => exact .inr ⟨.s2, .freR, _, _, _, rfl⟩
  | s2TofM => exact .inr ⟨.s2, .tofM, _, _, _, rfl⟩
  | s2FreM => exact .inr ⟨.s2, .freM, _, _, _, rfl⟩
  | _ => cases h

/-- `MIX` undoes itself (R141); outside the state it does nothing. -/
theorem mixNibble_mixNibble (g : Nat) (k : Nibble) (x : List Nibble) : mixNibble g k (mixNibble g k x) = x := by
  by_cases hg : g < x.length
  · simp [mixNibble, List.getD_eq_getElem?_getD, hg]
  · simp [mixNibble, List.set_eq_of_length_le (not_lt.mp hg)]

theorem keyEffect_keyEffect {size : Nat} (hs : legalSize size) {i : Instr} (hi : i.isKeyOp = true) {x : List Nibble}
    (hx : x.length = size / 4) : keyEffect size i (keyEffect size i x) = x := by
  rcases mix_or_gateInstr_of_isKeyOp hi with ⟨layer, g, k, rfl⟩ | ⟨sub, gate, layer, g, bits, rfl⟩
  · exact mixNibble_mixNibble g k x
  · rw [keyEffect_gateInstr, keyEffect_gateInstr, gateStep_gateStep hs layer sub gate g hx]

/-- A gate row in both slots (R114 to R117): its nibble decodes to it, it answers a next state in which only `x`
changed, and there every wire of the gate holds its output and every other wire what it held. -/
theorem gateInstr_result {s : State} (hs : legalSize s.cfg.size) (hx : s.x.length = s.cfg.n) (gate : Gate)
    {layer g : Nat} {bits : BitVec 2} {p : Instr × Sublayer × Nibble}
    (hp : p ∈ [(gateInstr .s1 gate layer g bits, Sublayer.s1, keyOf .s1 gate bits),
      (gateInstr .s2 gate layer g bits, Sublayer.s2, keyOf .s2 gate bits)]) :
    decode (.key layer (slotPhase p.2.1) g) [keyByte p.2.2] = .ok p.1 ∧
    ∃ t, exec p.1 s = .next t ∧ t = { s with x := t.x } ∧ t.x.length = s.x.length ∧
      ∀ v, readWire t.x v =
        let w := wire s.cfg.size layer p.2.1 g
        let out := gateOut gate (readWire s.x (w 0)) (readWire s.x (w 1)) (readWire s.x (w 2))
        if v = w 0 then out.1 else if v = w 1 then out.2.1 else if v = w 2 then out.2.2 else readWire s.x v := by
  obtain ⟨sub, rfl⟩ : ∃ sub, p = (gateInstr sub gate layer g bits, sub, keyOf sub gate bits) := by
    rcases List.mem_pair.mp hp with rfl | rfl
    · exact ⟨.s1, rfl⟩
    · exact ⟨.s2, rfl⟩
  exact ⟨decode_keyOf sub gate layer g bits, _, exec_gateInstr s sub gate layer g bits, rfl,
    length_gateStep _ _ _ _ _ _, readWire_gateStep_gate hs layer sub gate g hx⟩

/-- A wire that keeps its value need not be named apart from the others. -/
theorem ite_readWire (x : List Nibble) (v w : Nat) :
    (if v = w then readWire x w else readWire x v) = readWire x v := by
  split
  · next h => rw [h]
  · rfl

/-! ### Writes to different wires -/

/-- A wire outside the state is not written. -/
theorem writeWire_of_length_le {x : List Nibble} {w : Nat} (b : Bool) (hw : x.length ≤ w / 4) :
    writeWire x w b = x := List.set_eq_of_length_le hw

theorem writeWire_comm {w w' : Nat} (hne : w ≠ w') (b b' : Bool) (x : List Nibble) :
    writeWire (writeWire x w b) w' b' = writeWire (writeWire x w' b') w b := by
  rcases Nat.lt_or_ge (w / 4) x.length with hw | hw
  · rcases Nat.lt_or_ge (w' / 4) x.length with hw' | hw'
    · refine eq_of_readWire (by simp) fun v _ => ?_
      rw [readWire_writeWire _ _ _ _ (by simpa), readWire_writeWire _ _ _ _ hw,
        readWire_writeWire _ _ _ _ (by simpa), readWire_writeWire _ _ _ _ hw']
      split_ifs with h h'
      · exact absurd (h'.symm.trans h) hne
      all_goals rfl
    · rw [writeWire_of_length_le b' hw', writeWire_of_length_le b' (by simpa)]
  · rw [writeWire_of_length_le b hw, writeWire_of_length_le b (by simpa)]

/-! ### The statements -/

/-- Settles O7: S1 takes no reduction, and the wires of S2 lie in the gate's nibble or the next on the ring. -/
theorem wireAddressingFourCases : Obligations.WireAddressingFourCases := by
  intro size layer g k hs hg hk
  have hs1 := wire_s1 hs layer hg hk
  have hs2 : wire size layer .s2 g k = (4 * g + (layer % 2 + 2) + k) % size := by
    rw [wire, subOffset]; congr 1; omega
  refine ⟨fun heven => ⟨?_, ?_⟩, fun hodd => ⟨?_, ?_⟩, ⟨?_, ?_⟩, wire_s2_div_four hs layer hg hk,
    wire_mod_four hs layer .s2 g k⟩
  · rw [hs1, heven, Nat.add_zero]
  · rw [hs2, heven]
  · rw [hs1, hodd]
  · rw [hs2, hodd]
  · omega
  · omega

/-- Settles O8: the wires of one gate, of two gates, and the residue class a sublayer leaves out (`wire_mod_four`). -/
theorem gatesOfASublayerAreDisjoint : Obligations.GatesOfASublayerAreDisjoint := by
  intro size layer sub g g' k k' hs hg hg' hk hk'
  have hs1 := wire_mod_four hs layer .s1 g k
  have hs2 := wire_mod_four hs layer .s2 g k
  simp only [subOffset] at hs1 hs2
  refine ⟨wire_ne_of_place_ne hs layer sub hg hk hk', wire_ne_of_gate_ne hs layer sub hg hg' hk hk',
    fun heven => ?_, fun hodd => ?_⟩
  · rw [hs1, hs2, heven]; omega
  · rw [hs1, hs2, hodd]; omega

/-- Settles O9: of the outputs of `TOF.R` only the third can differ from its input. -/
theorem toffoliRegularResultAndFrame : Obligations.ToffoliRegularResultAndFrame := by
  intro s layer g bits hs hx p hp w
  obtain ⟨hdecode, t, hexec, hframe, hlen, hwires⟩ := gateInstr_result hs hx .tofR hp
  obtain ⟨-, h02, h12⟩ := wires_differ hs layer p.2.1 g
  refine ⟨hdecode, t, hexec, hframe, hlen, fun v _ => ?_⟩
  simp only [hwires, gateOut_tofR, w]
  by_cases h2 : v = wire s.cfg.size layer p.2.1 g 2
  · simp only [h2, h02.symm, h12.symm, if_false, if_true]
  · simp only [h2, if_false, ite_readWire]

/-- Settles O10: of the outputs of `TOF.M` only the first can differ from its input. -/
theorem toffoliMirroredResultAndFrame : Obligations.ToffoliMirroredResultAndFrame := by
  intro s layer g bits hs hx p hp w
  obtain ⟨hdecode, t, hexec, hframe, hlen, hwires⟩ := gateInstr_result hs hx .tofM hp
  refine ⟨hdecode, t, hexec, hframe, hlen, fun v _ => ?_⟩
  simp only [hwires, gateOut_tofM, ite_readWire, w]

/-- Settles O11: the first output of `FRE.R` is its input. -/
theorem fredkinRegularResultAndFrame : Obligations.FredkinRegularResultAndFrame := by
  intro s layer g bits hs hx p hp w
  obtain ⟨hdecode, t, hexec, hframe, hlen, hwires⟩ := gateInstr_result hs hx .freR hp
  obtain ⟨h01, h02, -⟩ := wires_differ hs layer p.2.1 g
  refine ⟨hdecode, t, hexec, hframe, hlen, fun v _ => ?_⟩
  simp only [hwires, gateOut_freR, w]
  by_cases h0 : v = wire s.cfg.size layer p.2.1 g 0
  · simp only [h0, h01, h02, if_false, if_true]
  · simp only [h0, if_false]

/-- Settles O12: the last output of `FRE.M` is its input. -/
theorem fredkinMirroredResultAndFrame : Obligations.FredkinMirroredResultAndFrame := by
  intro s layer g bits hs hx p hp w
  obtain ⟨hdecode, t, hexec, hframe, hlen, hwires⟩ := gateInstr_result hs hx .freM hp
  refine ⟨hdecode, t, hexec, hframe, hlen, fun v _ => ?_⟩
  simp only [hwires, gateOut_freM, ite_readWire, w]

/-- Settles O13: the three wires hold the gate's outputs, and these are the truth table's entry. -/
theorem gateStepsFollowTruthTables : Obligations.GateStepsFollowTruthTables := by
  intro s sub gate layer g bits hs hx w
  refine ⟨_, exec_gateInstr s sub gate layer g bits, ?_⟩
  have houts := readWire_gateStep_wires hs layer sub gate g hx
  have htable := gateOut_truthTable gate (readWire s.x (w 0)) (readWire s.x (w 1)) (readWire s.x (w 2))
  rw [← houts] at htable
  exact htable

/-- Settles O14, by the map on one nibble. -/
theorem sublayerOneGatesAreNibbleMaps : Obligations.SublayerOneGatesAreNibbleMaps := by
  intro s gate layer g bits hs hx hg
  rw [exec_gateInstr, gateStep_s1_eq_nibbleMap hs layer gate hg hx]

/-- Settles O15: a key operation writes `x` only, and its effect on `x` undoes itself. -/
theorem keyOperationsAreInvolutions : Obligations.KeyOperationsAreInvolutions := by
  intro s i hi hs hx
  refine ⟨_, exec_keyOp hi s, ?_⟩
  rw [exec_keyOp hi, keyEffect_keyEffect hs hi hx]

/-- Settles O16: the conditions agree as Boolean functions, and the two writes of a swap commute. -/
theorem mirroredGatesReverseTheWires : Obligations.MirroredGatesReverseTheWires := by
  intro w0 w1 w2 x h01 _ _
  refine ⟨?_, ?_⟩
  · simp only [applyGate, tofM, tofR, gateFires_tofM]
  · simp only [applyGate, freM, freR, gateFires_freM, writeWire_comm h01]

end Sys2Proof.Machine

/-! PROOFS of the family `41_layer_and_block.md`: the phases as maps on the lanes, the inverse of a round, and the
block run one key nibble at a time (R141 to R150, R153 to R156). -/

namespace Sys2Proof.Machine

open SpecTables

/-! ### Phases as maps on the lanes -/

/-- A fold over the lanes whose step at `g` writes lane `g` from itself and from `K[g]` is a lane-wise map: after
`m` steps the first `m` lanes have been mapped and the others still stand. -/
theorem foldl_range_eq_zipWith {f : List Nibble → Nat → List Nibble} {h : Nibble → Nibble → Nibble}
    {n : Nat} {K x : List Nibble} (hK : K.length = n) (hx : x.length = n)
    (hf : ∀ g < n, ∀ y : List Nibble, y.length = n → f y g = y.set g (h (y.getD g 0#4) (K.getD g 0#4))) :
    (List.range n).foldl f x = List.zipWith h x K := by
  have hprefix : ∀ m ≤ n, (List.range m).foldl f x = List.zipWith h (x.take m) (K.take m) ++ x.drop m := by
    intro m hm
    induction m with
    | zero => rfl
    | succ m ih =>
      have hxm : m < x.length := by omega
      have hKm : m < K.length := by omega
      have hdone : (List.zipWith h (x.take m) (K.take m)).length = m := by simp; omega
      rw [List.range_succ, List.foldl_append, List.foldl_cons, List.foldl_nil, ih (by omega),
        hf m hm _ (by simp; omega), List.set_append_right _ _ hdone.le, List.getD_append_right _ _ _ _ hdone.le, hdone,
        Nat.sub_self, List.drop_eq_getElem_cons hxm, List.take_succ_eq_append_getElem hxm,
        List.take_succ_eq_append_getElem hKm, List.zipWith_append (by simp; omega)]
      simp only [List.getD_cons_zero, List.set_cons_zero, List.getD_eq_getElem _ _ hKm, List.zipWith_cons_cons,
        List.zipWith_nil_left, List.append_assoc, List.cons_append, List.nil_append]
  simpa [List.take_of_length_le hK.le, List.take_of_length_le hx.le, List.drop_of_length_le hx.le]
    using hprefix n le_rfl

/-- The `MIX` phase is the bitwise XOR with the key layer (R141). -/
theorem mixPhase_eq_zipWith {size : Nat} {K x : List Nibble} (hK : K.length = size / 4) (hx : x.length = size / 4) :
    mixPhase size K x = List.zipWith (fun a b => a ^^^ b) x K :=
  foldl_range_eq_zipWith hK hx fun _ _ _ _ => rfl

/-- Bit `j` of the key nibble inverts wire `4g + j` (R141). -/
theorem readWire_mixNibble {g j : Nat} (k : Nibble) {x : List Nibble} (hg : g < x.length) (hj : j < 4) :
    readWire (mixNibble g k x) (4 * g + j) = (readWire x (4 * g + j) ^^ k.getLsbD j) := by
  have hdiv : (4 * g + j) / 4 = g := by omega
  have hmod : (4 * g + j) % 4 = j := by omega
  simp only [readWire, hdiv, hmod, mixNibble, List.getD_eq_getElem?_getD, List.getElem?_set_self hg, Option.getD_some,
    BitVec.getLsbD_xor]

theorem exec_mix (layer g : Nat) (k : Nibble) (s : State) :
    exec (.mix layer g k) s = .next { s with x := mixNibble g k s.x } := rfl

/-! ### The phases and a round undone -/

/-- Steps that undo themselves, taken again in reverse order, restore where they began. -/
theorem foldl_reverse_foldl {f : List Nibble → Nat → List Nibble} {n : Nat}
    (hlen : ∀ y g, (f y g).length = y.length) (hinv : ∀ y g, y.length = n → f (f y g) g = y) (order : List Nat)
    {x : List Nibble} (hx : x.length = n) : order.reverse.foldl f (order.foldl f x) = x := by
  induction order generalizing x with
  | nil => rfl
  | cons g order ih =>
    rw [List.foldl_cons, List.reverse_cons, List.foldl_append, ih ((hlen x g).trans hx), List.foldl_cons,
      List.foldl_nil, hinv x g hx]

section PhaseUndone

variable {size : Nat} (hs : legalSize size) (K : List Nibble) {x : List Nibble} (hx : x.length = size / 4)
include hs hx

/-- The `MIX` phase undoes itself: each of its operations does, and their order plays no part (R62, R141). -/
theorem mixPhase_mixPhase : mixPhase size K (mixPhase size K x) = x := by
  obtain ⟨hmix, -⟩ := phaseResultIndependentOfOrder size 0 K (mixPhase size K x) _ hs
    (by rw [length_mixPhase, hx]) (List.reverse_perm _)
  rw [← hmix]
  exact foldl_reverse_foldl (f := fun y g => mixNibble g (K.getD g 0#4) y) (fun _ _ => length_mixNibble _ _ _)
    (fun y g _ => mixNibble_mixNibble g _ y) _ hx

/-- A sublayer undoes itself: each of its gates does, and their order plays no part (R62, R119). -/
theorem sublayer_sublayer (layer : Nat) (sub : Sublayer) :
    sublayer size layer sub K (sublayer size layer sub K x) = x := by
  obtain ⟨-, hsub⟩ := phaseResultIndependentOfOrder size layer K (sublayer size layer sub K x) _ hs
    (by rw [length_sublayer, hx]) (List.reverse_perm _)
  rw [← hsub sub]
  exact foldl_reverse_foldl (length_keyGate size layer sub K)
    (fun y g hy => gateStep_gateStep hs layer sub _ g hy) _ hx

end PhaseUndone

/-- The phases of a round in reverse order (R154). -/
def unapplyLayer (size layer : Nat) (K x : List Nibble) : List Nibble :=
  mixPhase size K (sublayer size layer .s1 K (sublayer size layer .s2 K x))

@[simp] theorem length_unapplyLayer (size layer : Nat) (K x : List Nibble) :
    (unapplyLayer size layer K x).length = x.length := by simp [unapplyLayer]

theorem unapplyLayer_applyLayer {size : Nat} (hs : legalSize size) (layer : Nat) (K : List Nibble) {x : List Nibble}
    (hx : x.length = size / 4) : unapplyLayer size layer K (applyLayer size layer K x) = x := by
  have hmix : (mixPhase size K x).length = size / 4 := by rw [length_mixPhase, hx]
  rw [unapplyLayer, applyLayer, sublayer_sublayer hs K (by rw [length_sublayer, hmix]),
    sublayer_sublayer hs K hmix, mixPhase_mixPhase hs K hx]

theorem applyLayer_unapplyLayer {size : Nat} (hs : legalSize size) (layer : Nat) (K : List Nibble) {x : List Nibble}
    (hx : x.length = size / 4) : applyLayer size layer K (unapplyLayer size layer K x) = x := by
  have hs2 : (sublayer size layer .s2 K x).length = size / 4 := by rw [length_sublayer, hx]
  rw [unapplyLayer, applyLayer, mixPhase_mixPhase hs K (by rw [length_sublayer, hs2]),
    sublayer_sublayer hs K hs2, sublayer_sublayer hs K hx]

/-! ### Bijections -/

/-- The arrays of `n` nibbles. -/
def nibbleArrays (n : Nat) : Set (List Nibble) := {x | x.length = n}

theorem applyLayer_bijOn {size : Nat} (hs : legalSize size) (layer : Nat) (K : List Nibble) :
    Set.BijOn (applyLayer size layer K) (nibbleArrays (size / 4)) (nibbleArrays (size / 4)) :=
  Set.InvOn.bijOn
    ⟨fun _ hx => unapplyLayer_applyLayer hs layer K hx, fun _ hx => applyLayer_unapplyLayer hs layer K hx⟩
    (fun x hx => (length_applyLayer size layer K x).trans hx)
    (fun x hx => (length_unapplyLayer size layer K x).trans hx)

/-- One more round at the end (R147). -/
theorem permute_succ (size depth : Nat) (kl : List (List Nibble)) (x : List Nibble) :
    permute size (depth + 1) kl x = applyLayer size depth (kl.getD depth []) (permute size depth kl x) := by
  simp only [permute, List.range_succ, List.foldl_append, List.foldl_cons, List.foldl_nil]

theorem permute_bijOn {size : Nat} (hs : legalSize size) (depth : Nat) (kl : List (List Nibble)) :
    Set.BijOn (permute size depth kl) (nibbleArrays (size / 4)) (nibbleArrays (size / 4)) := by
  induction depth with
  | zero => exact Set.bijOn_id _
  | succ depth ih =>
    rw [funext (permute_succ size depth kl)]
    exact (applyLayer_bijOn hs depth _).comp ih

theorem existsUnique_of_bijOn {α β : Type} {f : α → β} {s : Set α} {t : Set β} (h : Set.BijOn f s t) {y : β}
    (hy : y ∈ t) : ∃! x, x ∈ s ∧ f x = y := by
  obtain ⟨x, hx, rfl⟩ := h.surjOn hy
  exact ⟨x, ⟨hx, rfl⟩, fun x' ⟨hx', he⟩ => h.injOn hx' hx he⟩

/-! ### The codec as a bijection (R200 to R204) -/

@[simp] theorem highNibble_joinNibbles (hi lo : Nibble) : highNibble (joinNibbles hi lo) = hi := by
  revert hi lo; decide

@[simp] theorem lowNibble_joinNibbles (hi lo : Nibble) : lowNibble (joinNibbles hi lo) = lo := by
  revert hi lo; decide

@[simp] theorem joinNibbles_highNibble_lowNibble (b : Byte) : joinNibbles (highNibble b) (lowNibble b) = b := by
  revert b; decide

theorem getD_pack {size i : Nat} (n : List Nibble) (hi : i < size / 8) :
    (pack size n).getD i 0#8 = joinNibbles (n.getD (2 * i) 0#4) (n.getD (2 * i + 1) 0#4) := by
  simp [pack, List.getD_eq_getElem?_getD, hi]

/-- The chunk that unpacks to an array of 64 nibbles is that array packed (R204). -/
theorem unpack_eq_iff_toList_eq_pack {c : Chunk} {y : List Nibble} (hy : y.length = 64) :
    unpack c = y ↔ c.toList = pack 256 y := by
  constructor
  · rintro rfl
    refine List.ext_getElem (by simp) fun i hi hi' => ?_
    rw [← List.getD_eq_getElem _ 0#8 hi, ← List.getD_eq_getElem _ 0#8 hi', getD_pack _ (by simpa using hi'),
      getD_unpack_even, getD_unpack_odd, joinNibbles_highNibble_lowNibble]
  · intro hc
    refine List.ext_getElem (by rw [length_unpack, hy]) fun i hi hi' => ?_
    have hbyte : i / 2 < 256 / 8 := by omega
    rw [← List.getD_eq_getElem _ 0#4 hi, ← List.getD_eq_getElem _ 0#4 hi']
    obtain heven | hodd : i = 2 * (i / 2) ∨ i = 2 * (i / 2) + 1 := by omega
    · rw [heven, getD_unpack_even, hc, getD_pack y hbyte, highNibble_joinNibbles]
    · rw [hodd, getD_unpack_odd, hc, getD_pack y hbyte, lowNibble_joinNibbles]

theorem unpack_bijOn : Set.BijOn unpack Set.univ (nibbleArrays 64) := by
  refine ⟨fun c _ => length_unpack c, fun c _ c' _ he => ?_, fun y hy => ?_⟩
  · have hc := (unpack_eq_iff_toList_eq_pack (length_unpack c')).mp he
    have hc' := (unpack_eq_iff_toList_eq_pack (length_unpack c')).mp rfl
    exact Vector.toList_inj.mp (hc.trans hc'.symm)
  · exact ⟨⟨⟨pack 256 y⟩, length_pack 256 y⟩, trivial, (unpack_eq_iff_toList_eq_pack hy).mpr rfl⟩

/-! ### The all-zero state -/

@[simp] theorem readWire_zeros (n w : Nat) : readWire (List.replicate n 0#4) w = false := by
  have hzero : (List.replicate n 0#4).getD (w / 4) 0#4 = 0#4 := by
    rw [List.getD_eq_getElem?_getD, List.getElem?_replicate]
    split <;> rfl
  rw [readWire, hzero, BitVec.getLsbD_zero]

/-- No gate fires on three zero wires (R114 to R117). -/
theorem gateStep_zeros (size layer : Nat) (sub : Sublayer) (gate : Gate) (g n : Nat) :
    gateStep size layer sub gate g (List.replicate n 0#4) = List.replicate n 0#4 := by
  cases gate <;> simp [gateStep, applyGate, tofR, freR, tofM, freM, gateFires]

theorem sublayer_zeros (size layer : Nat) (sub : Sublayer) (K : List Nibble) (n : Nat) :
    sublayer size layer sub K (List.replicate n 0#4) = List.replicate n 0#4 :=
  List.foldl_fixed' (fun _ => gateStep_zeros _ _ _ _ _ _) _

/-- `MIX` turns the zero state into the key layer (R156). -/
theorem mixPhase_zeros {size : Nat} {K : List Nibble} (hK : K.length = size / 4) :
    mixPhase size K (List.replicate (size / 4) 0#4) = K := by
  rw [mixPhase_eq_zipWith hK List.length_replicate, ← hK]
  exact List.ext_getElem (by simp) fun i _ _ => by simp

theorem applyLayer_zeros (size layer : Nat) :
    applyLayer size layer (List.replicate (size / 4) 0#4) (List.replicate (size / 4) 0#4)
      = List.replicate (size / 4) 0#4 := by
  rw [applyLayer, mixPhase_zeros List.length_replicate, sublayer_zeros, sublayer_zeros]

/-- As many rounds as a zero window has layers fix the zero state. -/
theorem permute_zeros (size : Nat) {rounds depth : Nat} (h : rounds ≤ depth) :
    permute size rounds (List.replicate depth (List.replicate (size / 4) 0#4)) (List.replicate (size / 4) 0#4)
      = List.replicate (size / 4) 0#4 := by
  induction rounds with
  | zero => rfl
  | succ rounds ih => rw [permute_succ, ih (by omega), List.getD_replicate _ h, applyLayer_zeros]

/-! ### One pass of the sequencer over a key layer -/

/-- The first `count` operations of a phase, as a step of the machine decodes and runs them (R25, R61). -/
def keyPass (size layer : Nat) (phase : Phase) (K : List Nibble) (count : Nat) (x : List Nibble) : List Nibble :=
  (List.range count).foldl (fun y g => keyEffect size (decodeKey layer phase g (K.getD g 0#4)) y) x

theorem keyPass_succ (size layer : Nat) (phase : Phase) (K : List Nibble) (count : Nat) (x : List Nibble) :
    keyPass size layer phase K (count + 1) x
      = keyEffect size (decodeKey layer phase count (K.getD count 0#4)) (keyPass size layer phase K count x) := by
  simp only [keyPass, List.range_succ, List.foldl_append, List.foldl_cons, List.foldl_nil]

theorem keyPass_mix (size layer : Nat) (K x : List Nibble) :
    keyPass size layer .mix K (size / 4) x = mixPhase size K x := rfl

theorem keyPass_slotPhase (size layer : Nat) (sub : Sublayer) (K x : List Nibble) :
    keyPass size layer (slotPhase sub) K (size / 4) x = sublayer size layer sub K x := by
  simp only [keyPass, decodeKey_slotPhase, keyEffect_gateInstr]
  rfl

/-- The three phases, one key nibble at a time, are the round (R140, R144). -/
theorem keyPass_round (size layer : Nat) (K x : List Nibble) :
    keyPass size layer .s2 K (size / 4)
        (keyPass size layer .s1 K (size / 4) (keyPass size layer .mix K (size / 4) x))
      = applyLayer size layer K x := by
  have hs1 := keyPass_slotPhase size layer .s1 K (mixPhase size K x)
  have hs2 := keyPass_slotPhase size layer .s2 K (sublayer size layer .s1 K (mixPhase size K x))
  simp only [slotPhase] at hs1 hs2
  rw [keyPass_mix, hs1, hs2, applyLayer]

/-! ### The block run one key nibble at a time -/

/-- Runs of the machine in sequence. -/
theorem runSteps_add {s t : State} {j : Nat} (h : runSteps j s = .next t) (k : Nat) :
    runSteps (j + k) s = runSteps k t := by
  induction j generalizing s with
  | zero => cases h; rw [Nat.zero_add]
  | succ j ih =>
    cases hstep : step s with
    | next u =>
      rw [runSteps_succ hstep] at h
      rw [Nat.add_right_comm, runSteps_succ hstep, ih h]
    | fault f => simp [runSteps, hstep] at h
    | refused r => simp [runSteps, hstep] at h

/-- `s` inside a block run at a position, with working state `x`. -/
def State.runningAt (s : State) (dest : Dest) (layer : Nat) (phase : Phase) (g : Nat) (x : List Nibble) : State :=
  { s with x := x, seq := some ⟨layer, phase, g, dest⟩ }

/-- What the end of a block run leaves does not depend on where in the run it was reached. -/
theorem finishBlock_runningAt (s : State) (dest dest' : Dest) (layer : Nat) (phase : Phase) (g : Nat)
    (x h : List Nibble) : finishBlock dest' h (s.runningAt dest layer phase g x) = finishBlock dest' h s := by
  cases dest' <;> rfl

section Advance

variable (s : State) (dest : Dest) (layer : Nat) (x : List Nibble)

theorem advance_runningAt (phase : Phase) {g : Nat} (hg : g + 1 < s.cfg.n) :
    advance (s.runningAt dest layer phase g x) = s.runningAt dest layer phase (g + 1) x := by
  simp [advance, State.runningAt, nextPosition, hg]

variable {m : Nat} (hm : s.cfg.n = m + 1)
include hm

theorem advance_mix : advance (s.runningAt dest layer .mix m x) = s.runningAt dest layer .s1 0 x := by
  simp [advance, State.runningAt, nextPosition, hm]

theorem advance_s1 : advance (s.runningAt dest layer .s1 m x) = s.runningAt dest layer .s2 0 x := by
  simp [advance, State.runningAt, nextPosition, hm]

theorem advance_s2 (hlayer : layer + 1 < s.cfg.depth) :
    advance (s.runningAt dest layer .s2 m x) = s.runningAt dest (layer + 1) .mix 0 x := by
  simp [advance, State.runningAt, nextPosition, hm, hlayer]

theorem advance_last (hlayer : layer + 1 = s.cfg.depth) :
    advance (s.runningAt dest layer .s2 m x) = finishBlock dest x s := by
  rw [← finishBlock_runningAt s dest dest layer .s2 m x]
  simp [advance, State.runningAt, nextPosition, hm, hlayer]

end Advance

section BlockRun

variable {s : State} (hs : s.Inv) (hp : s.Powered) (dest : Dest) {layer : Nat} (hlayer : layer < s.cfg.depth)
include hs hp hlayer

theorem step_runningAt (phase : Phase) {g : Nat} (hg : g < s.cfg.n) (x : List Nibble) :
    step (s.runningAt dest layer phase g x)
      = .next (advance (s.runningAt dest layer phase g
          (keyEffect s.cfg.size (decodeKey layer phase g ((s.kl.getD layer []).getD g 0#4)) x))) := by
  obtain ⟨⟨hkl, hK, -⟩, -⟩ := hs
  exact step_running (s := s.runningAt dest layer phase g x) rfl hp (keyNibble?_isSome hK (hkl ▸ hlayer) hg)

theorem runSteps_within_phase (phase : Phase) {g : Nat} (hg : g < s.cfg.n) (x : List Nibble) :
    runSteps g (s.runningAt dest layer phase 0 x)
      = .next (s.runningAt dest layer phase g (keyPass s.cfg.size layer phase (s.kl.getD layer []) g x)) := by
  induction g with
  | zero => rfl
  | succ g ih =>
    have hstep := step_runningAt hs hp dest hlayer phase (g := g) (by omega)
      (keyPass s.cfg.size layer phase (s.kl.getD layer []) g x)
    rw [advance_runningAt s dest layer _ phase hg, ← keyPass_succ] at hstep
    rw [runSteps_add (ih (by omega)), runSteps_succ hstep]
    rfl

/-- A phase takes `N` steps; its last one leaves the phase. -/
theorem runSteps_phase (phase : Phase) {m : Nat} (hm : s.cfg.n = m + 1) (x : List Nibble) :
    runSteps s.cfg.n (s.runningAt dest layer phase 0 x)
      = .next (advance (s.runningAt dest layer phase m
          (keyPass s.cfg.size layer phase (s.kl.getD layer []) s.cfg.n x))) := by
  have hstep := step_runningAt hs hp dest hlayer phase (g := m) (by omega)
    (keyPass s.cfg.size layer phase (s.kl.getD layer []) m x)
  rw [← keyPass_succ] at hstep
  rw [hm, runSteps_add (runSteps_within_phase hs hp dest hlayer phase (by omega) x), runSteps_succ hstep]
  rfl

/-- A round takes `3 * N` steps; its last one leaves the round. -/
theorem runSteps_round {m : Nat} (hm : s.cfg.n = m + 1) (x : List Nibble) :
    runSteps (3 * s.cfg.n) (s.runningAt dest layer .mix 0 x)
      = .next (advance (s.runningAt dest layer .s2 m (applyLayer s.cfg.size layer (s.kl.getD layer []) x))) := by
  have hphase := fun phase => runSteps_phase hs hp dest hlayer phase hm
  have hmix := hphase .mix x
  rw [advance_mix s dest layer _ hm] at hmix
  have hs1 := hphase .s1 (keyPass s.cfg.size layer .mix (s.kl.getD layer []) s.cfg.n x)
  rw [advance_s1 s dest layer _ hm] at hs1
  rw [show 3 * s.cfg.n = s.cfg.n + (s.cfg.n + s.cfg.n) by omega, runSteps_add hmix, runSteps_add hs1, hphase .s2,
    Params.n, keyPass_round]

end BlockRun

/-- Before round `layer` the machine has run the rounds before it (R147). -/
theorem runSteps_rounds {s : State} (hs : s.Inv) (hp : s.Powered) (dest : Dest) {m : Nat} (hm : s.cfg.n = m + 1)
    (x : List Nibble) {layer : Nat} (hlayer : layer < s.cfg.depth) :
    runSteps (3 * s.cfg.n * layer) (s.runningAt dest 0 .mix 0 x)
      = .next (s.runningAt dest layer .mix 0 (permute s.cfg.size layer s.kl x)) := by
  induction layer with
  | zero => rfl
  | succ layer ih =>
    rw [Nat.mul_succ, runSteps_add (ih (by omega)), runSteps_round hs hp dest (by omega) hm,
      advance_s2 s dest layer _ hm hlayer, permute_succ]

/-- A block run takes `3 * N * DEPTH` steps and ends with the block's result (R148, R150). -/
theorem runSteps_block {s : State} (hs : s.Inv) (hp : s.Powered) (dest : Dest) {m : Nat} (hm : s.cfg.n = m + 1)
    {depth : Nat} (hdepth : s.cfg.depth = depth + 1) (x : List Nibble) :
    runSteps (3 * s.cfg.n * s.cfg.depth) (s.runningAt dest 0 .mix 0 x)
      = .next (finishBlock dest (permute s.cfg.size s.cfg.depth s.kl x) s) := by
  have hlast : depth < s.cfg.depth := by omega
  rw [hdepth, Nat.mul_succ, runSteps_add (runSteps_rounds hs hp dest hm x hlast), runSteps_round hs hp dest hlast hm,
    advance_last s dest depth _ hm hdepth.symm, permute_succ]

theorem State.Inv.depth_pos_of_valid {s : State} (hs : s.Inv) (hv : s.valid = true) : 1 ≤ s.cfg.depth := by
  obtain ⟨-, -, hcfg, -⟩ := hs
  exact (hcfg hv).1

/-- A `PROC` command on an initialised idle instance, for either destination (R225, R226). -/
theorem exec_procCommand {s : State} (hv : s.valid = true) (hq : s.seq = none) (dest : Dest) (c : Chunk) :
    exec (procCommand dest c) s = .next (finishBlock dest (processBlock s.cfg.size s.cfg.depth s.kl c) s) := by
  have hrun : exec (procCommand dest c) s = whenIdle s (whenValid s (processChunk dest c s)) := by cases dest <;> rfl
  rw [hrun, whenIdle_idle hq, whenValid_valid hv, processChunk]

/-! ### The statements -/

/-- Settles O17: one operation wire by wire (`readWire_mixNibble`), the phase as a lane-wise map. -/
theorem mixResultAndFrame : Obligations.MixResultAndFrame := by
  refine ⟨fun s layer g k hg => ⟨decode_key_keyByte layer .mix g k, _, exec_mix layer g k s, rfl,
    List.getElem?_set_self hg, fun j hj => List.getElem?_set_ne hj.symm, fun j hj => readWire_mixNibble k hg hj, ?_⟩,
    fun size K x hK hx => mixPhase_eq_zipWith hK hx⟩
  rw [exec_mix, mixNibble_mixNibble]

/-- Settles O18: each gate of S1 is the tabulated map on its own nibble (`gateStep_s1_eq_nibbleMap`). -/
theorem sublayerOneIsLanewiseMap : Obligations.SublayerOneIsLanewiseMap :=
  fun _ layer _ _ hs hK hx =>
    foldl_range_eq_zipWith hK hx fun _ hg _ hy => gateStep_s1_eq_nibbleMap hs layer _ hg hy

/-- Settles O20: each phase of a round undoes itself. -/
theorem roundIsUndoneByReversedPhases : Obligations.RoundIsUndoneByReversedPhases :=
  fun _ layer K _ hs hx => ⟨unapplyLayer_applyLayer hs layer K hx, applyLayer_unapplyLayer hs layer K hx⟩

/-- Settles O21: `permute` is a composition of rounds, which are bijections, and `processBlock` is `permute` after
`unpack`, a bijection from the chunks. -/
theorem permuteAndProcessBlockAreBijective : Obligations.PermuteAndProcessBlockAreBijective := by
  refine ⟨fun _ depth kl hs _ hy => existsUnique_of_bijOn (permute_bijOn hs depth kl) hy, fun depth kl y hy => ?_⟩
  have hbij : Set.BijOn (processBlock 256 depth kl) Set.univ (nibbleArrays 64) :=
    (permute_bijOn (by decide : legalSize 256) depth kl).comp unpack_bijOn
  simpa using existsUnique_of_bijOn hbij hy

/-- Settles O22: a zero key layer leaves the zero state to the sublayers, whose gates do not fire on it. -/
theorem zeroWindowFixesZeroState : Obligations.ZeroWindowFixesZeroState :=
  fun size _ _ => ⟨permute_zeros size le_rfl, fun _ hK => mixPhase_zeros hK⟩

/-- Settles O23: the run is the rounds in sequence, each its three phases, each its `N` key nibbles; past the last
position it ends as the command does. -/
theorem sequencerRunEqualsCommand : Obligations.SequencerRunEqualsCommand := by
  intro s dest c hs hv hq hp
  rw [exec_procCommand hv hq]
  exact runSteps_block hs hp dest (hs.n_eq_of_valid hv) (Nat.sub_add_cancel (hs.depth_pos_of_valid hv)).symm (unpack c)

end Sys2Proof.Machine

/-! PROOFS of the family `42_key_schedule.md`: the standard layers and the window under rotation (R171 to R179). -/

namespace Sys2Proof.Machine

open SpecTables

/-! ### The positions of a standard layer (R171, R173, R174) -/

theorem getElem?_stdLayer_seed (rom : Vector (BitVec 64) 64) {n i p : Nat} (hi : i < 64) (hp : p < n) (h8 : p < 8) :
    (stdLayer rom n i)[p]? = some (seedNibble rom[i] p) := by
  simp [stdLayer, hi, hp, h8, Config.seedDigits]

theorem getElem?_stdLayer_fill (rom : Vector (BitVec 64) 64) {n i p : Nat} (hi : i < 64) (h8 : 8 ≤ p) (hp : p < n) :
    (stdLayer rom n i)[p]? = some (BitVec.ofNat 4 ((i + 1) % 16)) := by
  simp [stdLayer, hi, hp, h8.not_gt, Config.seedDigits]

theorem getElem?_stdLayer_pastTable (rom : Vector (BitVec 64) 64) {n i j : Nat} (hi : 64 ≤ i) (hj : j < n) :
    (stdLayer rom n i)[j]? = some (BitVec.ofNat 4 ((i + j) % 16)) := by
  simp [stdLayer, hi.not_gt, hj]

/-! ### A seed nibble, as a digit and as bits (R172) -/

/-- Seed nibble `p` is the hexadecimal digit of weight `16 ^ (9 - p)`. -/
theorem toNat_seedNibble (c : BitVec 64) {p : Nat} (hp : p < 8) :
    (seedNibble c p).toNat = c.toNat / 16 ^ (9 - p) % 16 := by
  have hshift : 2 ^ (36 - 4 * p) = 16 ^ (9 - p) := by
    rw [show 36 - 4 * p = 4 * (9 - p) by omega, pow_mul, show 2 ^ 4 = 16 by rfl]
  rw [seedNibble, BitVec.toNat_setWidth, BitVec.toNat_ushiftRight, Nat.shiftRight_eq_div_pow, hshift]

/-- The four bits of seed nibble `p < 8` are bits `36 - 4p` to `39 - 4p`, so all eight lie in bits 8 to 39. -/
theorem seedNibble_congr {c c' : BitVec 64} {p : Nat} (hp : p < 8)
    (h : ∀ b, 8 ≤ b → b ≤ 39 → c.getLsbD b = c'.getLsbD b) : seedNibble c p = seedNibble c' p := by
  refine BitVec.eq_of_getLsbD_eq fun k hk => ?_
  simp only [seedNibble, BitVec.getLsbD_setWidth, BitVec.getLsbD_ushiftRight]
  rw [h (36 - 4 * p + k) (by omega) (by omega)]

/-! ### The textual rendering (R171) -/

/-- Pad a little-endian digit list to `w` digits, most significant first, and keep the rightmost `w`: position `j`
is the digit of index `w - 1 - j`, with 0 past the end. Shorter lists gain zeros, longer ones lose digits. -/
theorem getElem?_rightmost_padded (ds : List Nat) {w j : Nat} (hj : j < w) :
    let padded := List.replicate (w - ds.length) 0 ++ ds.reverse
    (padded.drop (padded.length - w))[j]? = some (ds.getD (w - 1 - j) 0) := by
  intro padded
  have hlen : padded.length = w - ds.length + ds.length := by simp [padded]
  rw [List.getElem?_drop, hlen]
  by_cases hpad : j < w - ds.length
  · rw [List.getElem?_append_left (by simp; omega), List.getD_eq_default _ _ (by omega),
      List.getElem?_replicate_of_lt (by omega)]
  · rw [List.getElem?_append_right (by simp; omega), List.length_replicate, List.getElem?_reverse (by omega),
      List.getElem?_eq_getElem (by omega), List.getD_eq_getElem _ _ (by omega)]
    congr 2
    omega

/-- Character `p` of the rendering is the hexadecimal digit of weight `16 ^ (9 - p)`. -/
theorem getElem?_renderedSeed (c : BitVec 64) {p : Nat} (hp : p < 8) :
    (renderedSeed c)[p]? = some (c.toNat / 16 ^ (9 - p) % 16) := by
  have hdigit := getElem?_rightmost_padded (Nat.digits 16 c.toNat) (show p < 10 by omega)
  rw [Nat.getD_digits _ _ (by norm_num)] at hdigit
  simpa [renderedSeed, List.getElem?_take, hp] using hdigit

/-! ### The window under rotation (R178, R179) -/

/-- Rotating by `H_1 .. H_p` puts them before the window, newest first, and cuts once at the end: what a cut in
between drops lies past the last cut too. -/
theorem foldl_rotate {depth : Nat} (hs : List (List Nibble)) {kl : List (List Nibble)} (hkl : kl.length = depth) :
    hs.foldl (fun window h => rotate depth h window) kl = (hs.reverse ++ kl).take depth := by
  induction hs generalizing kl with
  | nil => simp [← hkl]
  | cons h hs ih =>
    rw [List.foldl_cons, ih (length_rotate h hkl), rotate, List.reverse_cons, List.append_assoc,
      List.singleton_append, List.take_append, List.take_append, List.take_take, Nat.min_eq_left (Nat.sub_le _ _)]

/-! ### The statements -/

/-- Settles O28: a seed nibble and a character of the rendering are the same hexadecimal digit of the ROM word. -/
theorem standardLayersFollowTheRendering : Obligations.StandardLayersFollowTheRendering := by
  refine fun rom n i => ⟨length_stdLayer rom n i, fun hi p hp h8 => ?_,
    fun hi p h8 hp => getElem?_stdLayer_fill rom hi h8 hp, fun hi j hj => getElem?_stdLayer_pastTable rom hi hj⟩
  rw [getElem?_stdLayer_seed rom hi hp h8, Option.map_some, toNat_seedNibble _ h8, getElem?_renderedSeed _ h8]

/-- Settles O29: of a table only the seed nibbles enter a layer, and they are made of bits 8 to 39. -/
theorem onlyMiddleRomBitsReachTheWindow : Obligations.OnlyMiddleRomBitsReachTheWindow := by
  intro rom rom' n i h
  refine List.ext_getElem? fun p => ?_
  by_cases hp : p < n
  · by_cases hi : i < 64
    · by_cases h8 : p < 8
      · rw [getElem?_stdLayer_seed rom hi hp h8, getElem?_stdLayer_seed rom' hi hp h8, seedNibble_congr h8 (h i hi)]
      · rw [getElem?_stdLayer_fill rom hi (by omega) hp, getElem?_stdLayer_fill rom' hi (by omega) hp]
    · rw [getElem?_stdLayer_pastTable rom (by omega) hp, getElem?_stdLayer_pastTable rom' (by omega) hp]
  · rw [List.getElem?_eq_none (by simpa using hp), List.getElem?_eq_none (by simpa using hp)]

/-- Settles O51: the window is the front of the pushed layers, newest first, followed by the initial ones
(`foldl_rotate`). -/
theorem windowAfterRotations : Obligations.WindowAfterRotations := by
  intro depth kl hs hkl
  rw [foldl_rotate hs hkl]
  refine ⟨by simp [hkl], fun l hl => ?_⟩
  rw [List.getElem?_take_of_lt hl]
  split
  next hnew => rw [List.getElem?_append_left (by simpa using hnew), List.getElem?_reverse hnew]
  next hold => rw [List.getElem?_append_right (by simpa using hold), List.length_reverse]

end Sys2Proof.Machine

/-! PROOFS of the family `43_block_codec.md`: the codec (R200 to R204). -/

namespace Sys2Proof.Machine

/-- R202, R203: a byte of `pack` joins its pair of nibbles, with 0 for a nibble out of range. -/
theorem getElem?_pack {size i : Nat} (n : List Nibble) (hi : i < size / 8) :
    (pack size n)[i]? = some (joinNibbles (n.getD (2 * i) 0#4) (n.getD (2 * i + 1) 0#4)) := by
  have hlt : i < (pack size n).length := (length_pack size n).symm ▸ hi
  rw [← getD_pack n hi, List.getD_eq_getElem _ _ hlt, List.getElem?_eq_getElem hlt]

/-- R204, first half: the bytes of a chunk come back. -/
theorem pack_unpack (c : Chunk) : pack 256 (unpack c) = c.toList :=
  ((unpack_eq_iff_toList_eq_pack (length_unpack c)).mp rfl).symm

/-- Settles O34: the byte is the join of its pair of nibbles (`getElem?_pack`), and its two halves are that pair
again. -/
theorem packCombinesNibblePairs : Obligations.PackCombinesNibblePairs := by
  refine fun size n => ⟨length_pack size n, fun i hi => ⟨_, getElem?_pack n hi, ?_, ?_⟩⟩
  · exact (highNibble_joinNibbles _ _).trans List.getD_eq_getElem?_getD
  · exact (lowNibble_joinNibbles _ _).trans List.getD_eq_getElem?_getD

/-- Settles O35: `pack_unpack` one way; the other way every array of 64 nibbles is some chunk unpacked
(`unpack_bijOn`), to which `pack_unpack` applies again. -/
theorem packAndUnpackAreInverse : Obligations.PackAndUnpackAreInverse := by
  refine ⟨pack_unpack, fun n hn => ?_⟩
  obtain ⟨c, -, rfl⟩ := unpack_bijOn.surjOn hn
  exact ⟨c, (pack_unpack c).symm, rfl⟩

end Sys2Proof.Machine

/-! PROOFS of the family `44_commands.md`: the five commands, the step that runs them, and the port (R220 to R230). -/

namespace Sys2Proof.Machine

open SpecTables

/-! ### The two `INIT` commands (R221 to R224) -/

theorem exec_initCommand (mode : Mode) {s : State} (hq : s.seq = none) :
    exec (initCommand mode) s = initialise mode s := by
  cases mode <;> exact whenIdle_idle hq _

theorem exec_initCommand_ok (mode : Mode) {s : State} (hq : s.seq = none)
    (hcfg : 1 ≤ s.cfg.depth ∧ s.cfg.size = 256) : exec (initCommand mode) s = .next (initialised mode s) :=
  (exec_initCommand mode hq).trans (initialise_ok mode hcfg.1 hcfg.2)

/-- On a configuration that fails a check an `INIT` raises an exception (R287, R288). -/
theorem exec_initCommand_fault (mode : Mode) {s : State} (hq : s.seq = none)
    (hcfg : ¬ (1 ≤ s.cfg.depth ∧ s.cfg.size = 256)) :
    ∃ e, exec (initCommand mode) s = .next { s with response := .fault e } := by
  obtain ⟨e, he⟩ := Option.ne_none_iff_exists'.mp (mt (configCheck_none s.cfg).mp hcfg)
  refine ⟨e, (exec_initCommand mode hq).trans ?_⟩
  simp only [initialise, he, raise]

@[simp] theorem initialised_kl (mode : Mode) (s : State) : (initialised mode s).kl = initialWindow mode s.cfg := rfl

theorem n_eq_of_size {cfg : Params} (hs : cfg.size = 256) : cfg.n = 64 := by rw [Params.n, hs]

/-- Nibble `g` of layer `i` of the initial window is nibble `g` of schedule layer `i` (R177). -/
theorem keyNibble?_initialWindow (mode : Mode) {cfg : Params} {i : Nat} (hi : i < cfg.depth) (g : Nat) :
    keyNibble? (initialWindow mode cfg) i g = (scheduleLayer mode cfg i)[g]? := by
  rw [keyNibble?, getElem?_initialWindow mode cfg hi, Option.bind_some]

/-- R172: the shift and mask of a seed nibble are a bit field of the ROM word. -/
theorem seedNibble_eq_extractLsb' (c : BitVec 64) (p : Nat) : seedNibble c p = c.extractLsb' (36 - 4 * p) 4 := by
  refine BitVec.eq_of_getLsbD_eq fun k hk => ?_
  simp [seedNibble, hk]

theorem getElem?_rndLayer (prng : Nat → Nibble) {n i g : Nat} (hg : g < n) :
    (rndLayer prng n i)[g]? = some (prng (i * n + g)) := by
  simp [rndLayer, hg]

/-- What an `INIT` of either mode leaves, but for what the nibbles of the window are (R222). -/
structure FreshlyInitialised (s t : State) : Prop where
  valid    : t.valid = true
  cfg      : t.cfg = s.cfg
  seq      : t.seq = none
  inputs   : t.inputs = s.inputs
  response : t.response = .ok []
  ldn      : t.ldn = List.replicate 64 0#4
  depth    : t.kl.length = s.cfg.depth
  layers   : ∀ K ∈ t.kl, K.length = 64

theorem freshlyInitialised_initialised (mode : Mode) {s : State} (hq : s.seq = none) (hs : s.cfg.size = 256) :
    FreshlyInitialised s (initialised mode s) := by
  have hn := n_eq_of_size hs
  exact ⟨rfl, rfl, hq, rfl, rfl, congrArg (List.replicate · 0#4) hn, length_initialWindow mode s.cfg,
    hn ▸ initialWindow_shaped mode s.cfg⟩

/-- An `INIT` writes the named fields from the configuration alone (R224). -/
theorem initialised_forgets (mode : Mode) {s s' : State} (hq : s.seq = none) (hq' : s'.seq = none)
    (hcfg : s.cfg = s'.cfg) (hd : 1 ≤ s.cfg.depth) (hs : s.cfg.size = 256) :
    ∃ t t', exec (initCommand mode) s = .next t ∧ exec (initCommand mode) s' = .next t' ∧
      t.valid = t'.valid ∧ t.kl = t'.kl ∧ t.ldn = t'.ldn ∧ t.seq = t'.seq ∧ t.response = t'.response := by
  have h := freshlyInitialised_initialised mode hq hs
  have h' := freshlyInitialised_initialised mode hq' (hcfg ▸ hs)
  exact ⟨_, _, exec_initCommand_ok mode hq ⟨hd, hs⟩, exec_initCommand_ok mode hq' (hcfg ▸ ⟨hd, hs⟩),
    h.valid.trans h'.valid.symm, congrArg (initialWindow mode) hcfg, h.ldn.trans h'.ldn.symm,
    h.seq.trans h'.seq.symm, h.response.trans h'.response.symm⟩

/-! ### The commands of an initialised instance (R225, R226, R228) -/

/-- A command that needs an instance, while there is none (R283). -/
theorem whenIdle_whenValid_fresh {s : State} (hq : s.seq = none) (hv : s.valid = false)
    (o : Host.Outcome State Fault Refusal) :
    whenIdle s (whenValid s o) = .next { s with response := .fault .notInitialised } := by
  rw [whenIdle_idle hq, whenValid_fresh hv, raise]

theorem exec_rdDig {s : State} (hq : s.seq = none) (hv : s.valid = true) :
    exec .rdDig s = .next (respond (pack s.cfg.size s.ldn) s) :=
  (whenIdle_idle hq _).trans (whenValid_valid hv _)

theorem digest_eq {s : State} (hq : s.seq = none) (hv : s.valid = true) :
    digest s = some (pack s.cfg.size s.ldn) := by
  rw [digest, exec_rdDig hq hv]
  rfl

/-- R178: the pushed layer is the new front of a window of at least one layer. -/
theorem getElem?_rotate_zero {depth : Nat} (hd : 1 ≤ depth) (h : List Nibble) (kl : List (List Nibble)) :
    (rotate depth h kl)[0]? = some h := by
  rw [rotate, List.getElem?_take_of_lt hd, List.getElem?_cons_zero]

/-- R178: every other layer comes from one place further front. -/
theorem getElem?_rotate_of_pos {depth l : Nat} (h : List Nibble) (kl : List (List Nibble)) (hpos : 1 ≤ l)
    (hl : l < depth) : (rotate depth h kl)[l]? = kl[l - 1]? := by
  rw [rotate, List.getElem?_take_of_lt hl, List.getElem?_cons, if_neg (by omega)]

theorem pack_zeros (size n : Nat) : pack size (List.replicate n 0#4) = List.replicate (size / 8) 0#8 := by
  have hzero (j : Nat) : (List.replicate n 0#4).getD j 0#4 = 0#4 := by
    rw [List.getD_eq_getElem?_getD, List.getElem?_replicate]
    split <;> rfl
  refine List.eq_replicate_iff.mpr ⟨length_pack size _, fun b hb => ?_⟩
  obtain ⟨i, -, rfl⟩ := List.mem_map.mp hb
  rw [hzero, hzero]
  rfl

/-! ### Digests determine chunks (L5) -/

theorem pack_injOn : Set.InjOn (pack 256) (nibbleArrays 64) := by
  intro x hx y hy he
  obtain ⟨c, -, rfl⟩ := unpack_bijOn.surjOn hx
  obtain ⟨c', -, rfl⟩ := unpack_bijOn.surjOn hy
  rw [pack_unpack, pack_unpack, Vector.toList_inj] at he
  rw [he]

theorem processBlock_injective (depth : Nat) (kl : List (List Nibble)) :
    Function.Injective (processBlock 256 depth kl) := by
  intro c c' he
  have hunpack := (permute_bijOn (by decide : legalSize 256) depth kl).injOn (length_unpack c) (length_unpack c') he
  exact unpack_bijOn.injOn trivial trivial hunpack

/-- The digest a `PROC.FIN` of `c` leads to, as a function of `c` (R226, R228). -/
theorem pack_processBlock_injective (depth : Nat) (kl : List (List Nibble)) :
    Function.Injective fun c => pack 256 (processBlock 256 depth kl c) :=
  fun _ _ he => processBlock_injective depth kl
    (pack_injOn (length_processBlock 256 depth kl _) (length_processBlock 256 depth kl _) he)

/-! ### A command answers, and the pending inputs play no part in it (R230) -/

/-- A command issued to an idle machine answers a next state, and the machine is idle again. -/
theorem exec_command_answers {i : Instr} (hi : i.isKeyOp = false) {s : State} (hq : s.seq = none) :
    ∃ t, exec i s = .next t ∧ t.seq = none := by
  obtain ⟨t, -, ht, -⟩ := exec_agreeOffX hi hq s.x s.draws
  refine ⟨t, ht, ?_⟩
  rcases exec_next_cases ht with ⟨hkey, -⟩ |
    ⟨-, -, ⟨e, rfl⟩ | ⟨mode, -, -, rfl⟩ | ⟨-, chunk, dest, -, rfl⟩ | ⟨-, -, rfl⟩⟩
  · rw [hi] at hkey; cases hkey
  · exact hq
  · exact hq
  · exact finishBlock_seq dest _ s
  · exact hq

/-- An outcome with other inputs pending in its next state. -/
def withInputs (q : List Input) : Host.Outcome State Fault Refusal → Host.Outcome State Fault Refusal
  | .next t => .next { t with inputs := q }
  | .fault f => .fault f
  | .refused r => .refused r

theorem initialise_withInputs (mode : Mode) (s : State) (q : List Input) :
    initialise mode { s with inputs := q } = withInputs q (initialise mode s) := by
  unfold initialise
  cases configCheck s.cfg <;> rfl

theorem processChunk_withInputs (dest : Dest) (c : Chunk) (s : State) (q : List Input) :
    processChunk dest c { s with inputs := q } = withInputs q (processChunk dest c s) := by
  cases dest <;> rfl

theorem whenValid_withInputs (s : State) (q : List Input) {o o' : Host.Outcome State Fault Refusal}
    (h : o' = withInputs q o) : whenValid { s with inputs := q } o' = withInputs q (whenValid s o) := by
  unfold whenValid
  split
  · exact h
  · rfl

theorem whenIdle_withInputs (s : State) (q : List Input) {o o' : Host.Outcome State Fault Refusal}
    (h : o' = withInputs q o) : whenIdle { s with inputs := q } o' = withInputs q (whenIdle s o) := by
  unfold whenIdle
  cases s.seq with
  | none => exact h
  | some r => rfl

/-- No instruction reads or writes the pending inputs. -/
theorem exec_withInputs (i : Instr) (s : State) (q : List Input) :
    exec i { s with inputs := q } = withInputs q (exec i s) := by
  cases i with
  | initStd => exact whenIdle_withInputs s q (initialise_withInputs _ s q)
  | initRnd => exact whenIdle_withInputs s q (initialise_withInputs _ s q)
  | procPush c => exact whenIdle_withInputs s q (whenValid_withInputs s q (processChunk_withInputs _ c s q))
  | procFin c => exact whenIdle_withInputs s q (whenValid_withInputs s q (processChunk_withInputs _ c s q))
  | rdDig => exact whenIdle_withInputs s q (whenValid_withInputs s q rfl)
  | _ => rfl

/-! ### The port -/

theorem encode_place_of_command {i : Instr} (hi : i.isKeyOp = false) : (encode i).1 = .command := by
  cases i with
  | initStd => rfl
  | initRnd => rfl
  | procPush c => rfl
  | procFin c => rfl
  | rdDig => rfl
  | _ => cases hi

theorem decode_command_encode {i : Instr} (hi : i.isKeyOp = false) : decode .command (encode i).2 = .ok i :=
  encode_place_of_command hi ▸ decode_encode i

/-- One step with an encoded command at the head of the port. -/
theorem step_issued {i : Instr} (hi : i.isKeyOp = false) {s : State} (hq : s.seq = none) (rest : List Input) :
    step { s with inputs := .command (encode i).2 :: rest } = withInputs rest (exec i s) :=
  (step_command (s := { s with inputs := _ :: rest }) hq rfl (decode_command_encode hi)).trans
    (exec_withInputs i s rest)

/-- With nothing pending before, the issued commands are the whole port. -/
theorem issue_of_inputs_nil (cmds : List Instr) {s : State} (hin : s.inputs = []) :
    issue cmds s = { s with inputs := cmds.map fun i => .command (encode i).2 } := by
  rw [issue, hin, List.nil_append]

/-- Each step takes one issued command, and what the rest of the port holds plays no part in it (R230). -/
theorem runSteps_issue {cmds : List Instr} (hcmds : ∀ i ∈ cmds, i.isKeyOp = false) {s : State} (hq : s.seq = none)
    (hin : s.inputs = []) : runSteps cmds.length (issue cmds s) = runCommands cmds s := by
  induction cmds generalizing s with
  | nil => rw [issue_of_inputs_nil [] hin, List.map_nil, ← hin]; rfl
  | cons i rest ih =>
    obtain ⟨hi, hrest⟩ := List.forall_mem_cons.mp hcmds
    obtain ⟨t, ht, htq⟩ := exec_command_answers hi hq
    have htin : t.inputs = [] := (exec_frame ht).inputs.trans hin
    have hstep : step (issue (i :: rest) s) = .next (issue rest t) := by
      rw [issue_of_inputs_nil _ hin, issue_of_inputs_nil _ htin, List.map_cons, step_issued hi hq, ht, withInputs]
    rw [List.length_cons, runSteps_succ hstep, ih hrest htq htin, runCommands, ht]

/-! ### The statements -/

/-- Settles O26: the window is the standard schedule, whose layers are seed and fill below 64 and the diagonal from 64
on. -/
theorem initStdResult : Obligations.InitStdResult := by
  refine fun s hq =>
    ⟨fun hcfg => ⟨_, exec_initCommand_ok .standard hq hcfg, ?_⟩, exec_initCommand_fault .standard hq⟩
  obtain ⟨hvalid, hcfg', hseq, hin, hresp, hldn, hdepth, hlayers⟩ :=
    freshlyInitialised_initialised .standard hq hcfg.2
  have hn := n_eq_of_size hcfg.2
  refine ⟨hvalid, hcfg', hseq, hin, hresp, hldn, hdepth, hlayers,
    fun i hi hid => ⟨fun p h8 => ?_, fun p h8 hp => ?_⟩, fun i hi hid j hj => ?_⟩ <;>
    rw [initialised_kl, keyNibble?_initialWindow .standard hid, scheduleLayer, hn]
  · rw [getElem?_stdLayer_seed _ hi (by omega) h8, seedNibble_eq_extractLsb']
  · exact getElem?_stdLayer_fill _ hi h8 hp
  · exact getElem?_stdLayer_pastTable _ hi hj

/-- Settles O27: the window is the random schedule, filled layer by layer from draw 0. -/
theorem initRndResult : Obligations.InitRndResult := by
  refine fun s hq =>
    ⟨fun hcfg => ⟨_, exec_initCommand_ok .random hq hcfg, ?_⟩, exec_initCommand_fault .random hq⟩
  obtain ⟨hvalid, hcfg', hseq, hin, hresp, hldn, hdepth, hlayers⟩ :=
    freshlyInitialised_initialised .random hq hcfg.2
  refine ⟨hvalid, hcfg', hseq, hin, hresp, hldn, hdepth, hlayers, fun i g hi hg => ?_⟩
  rw [initialised_kl, keyNibble?_initialWindow .random hi, scheduleLayer, n_eq_of_size hcfg.2, getElem?_rndLayer _ hg]

/-- Settles O30, for either mode by `initialised_forgets`. -/
theorem initForgetsEarlierState : Obligations.InitForgetsEarlierState := by
  intro s s' hq hq' hcfg hd hs i hi
  simp only [List.mem_cons, List.not_mem_nil, or_false] at hi
  rcases hi with rfl | rfl
  · exact initialised_forgets .standard hq hq' hcfg hd hs
  · exact initialised_forgets .random hq hq' hcfg hd hs

/-- Settles O31: the block result is computed from the window as it was, and the window is then rotated. -/
theorem procPushResult : Obligations.ProcPushResult := by
  refine fun s c hs hq => ⟨fun hv => ?_, fun hv => whenIdle_whenValid_fresh hq hv _⟩
  have hd := hs.depth_pos_of_valid hv
  obtain ⟨⟨hkl, -⟩, -⟩ := hs
  exact ⟨_, exec_procCommand hv hq .push c, length_rotate _ hkl, getElem?_rotate_zero hd _ _,
    fun l hpos hl => getElem?_rotate_of_pos _ _ hpos hl, rfl, hv, rfl, rfl, rfl, rfl⟩

/-- Settles O32: the run reads the window, which `PROC.FIN` does not write, so the second run gives the same. -/
theorem procFinResult : Obligations.ProcFinResult := by
  refine fun s c hq => ⟨fun hv => ?_, fun hv => whenIdle_whenValid_fresh hq hv _⟩
  exact ⟨_, exec_procCommand hv hq .fin c, rfl, rfl, hv, rfl, rfl, rfl, rfl,
    _, exec_procCommand (s := finishBlock .fin _ s) hv rfl .fin c, rfl, rfl⟩

/-- Settles O33: the answer is `LDN` packed, and the answer itself is no part of what is packed. -/
theorem rdDigResult : Obligations.RdDigResult := by
  refine fun s hs hq => ⟨fun hv => ?_, fun hv => whenIdle_whenValid_fresh hq hv _⟩
  obtain ⟨⟨-, -, hldn, -⟩, -, hcfg, -⟩ := hs
  have hsize := (hcfg hv).2
  have hread {j : Nat} (hj : j < 64) : s.ldn[j]? = some (s.ldn.getD j 0#4) := by
    have hlt : j < s.ldn.length := by rwa [hldn, n_eq_of_size hsize]
    rw [List.getD_eq_getElem _ _ hlt, List.getElem?_eq_getElem hlt]
  refine ⟨_, exec_rdDig hq hv, exec_rdDig (s := { s with response := .ok _ }) hq hv, length_pack _ _,
    fun i hi => ⟨_, getElem?_pack s.ldn hi, ?_, ?_⟩, fun hzero => ?_⟩
  · rw [Params.b, hsize] at hi
    exact (hread (by omega)).trans (congrArg some (highNibble_joinNibbles _ _).symm)
  · rw [Params.b, hsize] at hi
    exact (hread (by omega)).trans (congrArg some (lowNibble_joinNibbles _ _).symm)
  · rw [hzero, pack_zeros, Params.b]

/-- Settles O36: the digest after `PROC.FIN c` is the packed block result, which determines `c`. -/
theorem differentChunksDifferentDigests : Obligations.DifferentChunksDifferentDigests := by
  intro s c c' hs hv hq hne
  obtain ⟨-, -, hcfg, -⟩ := hs
  have hdigest (c : Chunk) : digest (finishBlock .fin (processBlock s.cfg.size s.cfg.depth s.kl c) s)
      = some (pack 256 (processBlock 256 s.cfg.depth s.kl c)) := by
    rw [digest_eq (s := finishBlock .fin _ s) rfl hv, finishBlock_fin_cfg, finishBlock_fin_ldn, (hcfg hv).2]
  exact ⟨_, _, _, _, exec_procCommand hv hq .fin c, exec_procCommand hv hq .fin c', hdigest c, hdigest c',
    (pack_processBlock_injective s.cfg.depth s.kl).ne hne⟩

/-- Settles O50, by the ways a step can go: the sequencer has a key nibble inside the window, and a command answers
from idle. -/
theorem machineAlwaysGoesOn : Obligations.MachineAlwaysGoesOn := by
  rintro s ⟨⟨hkl, hK, -⟩, hseq, -⟩
  rcases step_cases s with ⟨rest, -, hstep⟩ | ⟨-, -, hstep⟩ |
    ⟨bytes, rest, hq, -, ⟨why, -, hstep⟩ | ⟨i, hd, hstep⟩⟩ | ⟨r, hr, -, ⟨hmissing, -⟩ | ⟨k, -, hstep⟩⟩
  · exact .inl ⟨_, hstep⟩
  · exact .inl ⟨_, hstep⟩
  · exact .inr ⟨why, hstep⟩
  · obtain ⟨t, ht, -⟩ :=
      exec_command_answers (isKeyOp_of_decode_command hd) (s := { s with inputs := rest }) hq
    exact .inl ⟨t, hstep.trans ht⟩
  · obtain ⟨hlayer, hg⟩ := hseq r hr
    rw [keyNibble?_isSome hK (hkl ▸ hlayer) hg] at hmissing
    cases hmissing
  · exact .inl ⟨_, hstep⟩

/-- Settles O52, by induction on the issued commands (`runSteps_issue`). -/
theorem issuedCommandsRunInOrder : Obligations.IssuedCommandsRunInOrder :=
  fun _ _ hq hin hcmds => runSteps_issue hcmds hq hin

/-- Settles O25: each clause is one way a step can go; for a key nibble the decoded instruction is the one the
sequencer's place gives it. -/
theorem stepRunsTheDecodedInstruction : Obligations.StepRunsTheDecodedInstruction := by
  refine ⟨fun s bytes rest i => step_command, fun s t r k i hr hp hk hd ht => ?_, fun s => step_waiting,
    fun s rest => step_powerLoss⟩
  rw [decode_key_keyByte] at hd
  cases hd
  rw [exec_keyOp (isKeyOp_decodeKey _ _ _ _)] at ht
  cases ht
  exact step_running hr hp hk

end Sys2Proof.Machine

/-! PROOFS of the family `45_host_protocol.md`: the host's routines and the commands they issue (R250 to R262). -/

namespace Sys2Proof.Machine

/-! ### The chunks the host sends (R255, R256) -/

theorem toList_chunkOf (l : List Byte) : (chunkOf l).toList = (List.range 32).map fun j => l.getD j 0#8 := rfl

/-- Only the first 32 bytes of a list of at least 32 reach its chunk. -/
theorem chunkOf_append {l : List Byte} (hl : 32 ≤ l.length) (r : List Byte) : chunkOf (l ++ r) = chunkOf l := by
  rw [← Vector.toList_inj, toList_chunkOf, toList_chunkOf]
  exact List.map_congr_left fun j hj => List.getD_append _ _ _ _ ((List.mem_range.mp hj).trans_le hl)

/-- R256: byte `j` of the last chunk is byte `j` of the buffer, or the pad byte past its end. -/
theorem toList_paddedChunk (buffer : List Byte) :
    (paddedChunk buffer).toList = (List.range 32).map fun j => buffer.getD j Config.padByte := by
  rw [paddedChunk, toList_chunkOf]
  refine List.map_congr_left fun j hj => ?_
  rcases Nat.lt_or_ge j buffer.length with hin | hout
  · rw [List.getD_append _ _ _ _ hin, List.getD_eq_getElem _ _ hin, List.getD_eq_getElem _ _ hin]
  · have hpad : j - buffer.length < Config.chunkBytes - buffer.length :=
      Nat.sub_lt_sub_right hout (List.mem_range.mp hj)
    rw [List.getD_append_right _ _ _ _ hout, List.getD_replicate _ hpad, List.getD_eq_default _ _ hout]

/-- L12 (R256): a pad byte at the end of the buffer is not told apart from padding. -/
theorem paddedChunk_append_padByte (buffer : List Byte) :
    paddedChunk (buffer ++ [Config.padByte]) = paddedChunk buffer := by
  rw [← Vector.toList_inj, toList_paddedChunk, toList_paddedChunk]
  refine List.map_congr_left fun j _ => ?_
  rcases Nat.lt_or_ge j buffer.length with hin | hout
  · exact List.getD_append _ _ _ _ hin
  · rw [List.getD_append_right _ _ _ _ hout, List.getD_eq_default _ _ hout]
    cases j - buffer.length <;> rfl

/-! ### The full-block loop in closed form (R255) -/

/-- The chunks of the full blocks of a buffer, in order. -/
def fullBlocks (buffer : List Byte) : List Chunk :=
  (List.range (buffer.length / 32)).map fun k => chunkOf (buffer.drop (32 * k))

/-- What the full blocks leave of a buffer. -/
def partialBlock (buffer : List Byte) : List Byte := buffer.drop (32 * (buffer.length / 32))

theorem fullBlocks_of_lt {buffer : List Byte} (h : buffer.length < 32) : fullBlocks buffer = [] := by
  rw [fullBlocks, Nat.div_eq_of_lt h, List.range_zero, List.map_nil]

theorem partialBlock_of_lt {buffer : List Byte} (h : buffer.length < 32) : partialBlock buffer = buffer := by
  rw [partialBlock, Nat.div_eq_of_lt h, Nat.mul_zero, List.drop_zero]

theorem length_div_of_append (u v : List Byte) :
    (u ++ v).length / 32 = u.length / 32 + (partialBlock u ++ v).length / 32 := by
  simp only [partialBlock, List.length_append, List.length_drop]
  omega

/-- Dropping whole blocks of `u` and more from `u ++ v`. -/
theorem drop_append_blocks (u v : List Byte) (k : Nat) :
    (u ++ v).drop (32 * (u.length / 32 + k)) = (partialBlock u ++ v).drop (32 * k) := by
  rw [Nat.mul_add, ← List.drop_drop, List.drop_append_of_le_length (Nat.mul_div_le _ _), partialBlock]

/-- R257: the blocks of `u` come out first, and the loop goes on with what they leave. -/
theorem fullBlocks_append (u v : List Byte) :
    fullBlocks (u ++ v) = fullBlocks u ++ fullBlocks (partialBlock u ++ v) := by
  rw [fullBlocks, length_div_of_append, List.range_add, List.map_append, List.map_map]
  congr 1
  · refine List.map_congr_left fun k hk => ?_
    have hk := List.mem_range.mp hk
    rw [List.drop_append_of_le_length (by omega), chunkOf_append (by rw [List.length_drop]; omega)]
  · exact List.map_congr_left fun k _ => congrArg chunkOf (drop_append_blocks u v k)

theorem partialBlock_append (u v : List Byte) : partialBlock (u ++ v) = partialBlock (partialBlock u ++ v) := by
  rw [partialBlock, length_div_of_append, drop_append_blocks, ← partialBlock]

/-- One pass of the loop, as the closed form has it. -/
theorem fullBlocks_of_le {buffer : List Byte} (h : 32 ≤ buffer.length) :
    fullBlocks buffer = chunkOf (buffer.take 32) :: fullBlocks (buffer.drop 32) ∧
      partialBlock buffer = partialBlock (buffer.drop 32) := by
  have hlen : (buffer.take 32).length = 32 := by simp [h]
  have hfirst : fullBlocks (buffer.take 32) = [chunkOf (buffer.take 32)] := by
    rw [fullBlocks, hlen]; rfl
  have hnone : partialBlock (buffer.take 32) = [] := by
    rw [partialBlock, hlen]; exact List.drop_eq_nil_of_le hlen.le
  have hblocks := fullBlocks_append (buffer.take 32) (buffer.drop 32)
  have hrest := partialBlock_append (buffer.take 32) (buffer.drop 32)
  rw [List.take_append_drop, hnone, List.nil_append] at hblocks hrest
  rw [hfirst] at hblocks
  exact ⟨hblocks, hrest⟩

/-- With a pass for every byte the loop takes every full block. -/
theorem pushFull_eq {fuel : Nat} {buffer : List Byte} (h : buffer.length ≤ fuel) :
    pushFull fuel buffer = ((fullBlocks buffer).map .procPush, partialBlock buffer) := by
  induction fuel generalizing buffer with
  | zero =>
    cases List.eq_nil_of_length_eq_zero (Nat.le_zero.mp h)
    rfl
  | succ fuel ih =>
    rw [pushFull]
    split
    · next hfull =>
      obtain ⟨hblocks, hrest⟩ := fullBlocks_of_le hfull
      rw [ih (by rw [List.length_drop]; omega), hblocks, hrest, List.map_cons]
    · next hshort =>
      rw [fullBlocks_of_lt (by omega), partialBlock_of_lt (by omega), List.map_nil]

/-! ### What one absorb issues (R253 to R256) -/

theorem absorb_nil (h : HostMem) : absorb [] h = ([], h) := rfl

theorem absorb_of_ne_nil {bytes : List Byte} (hb : bytes ≠ []) (h : HostMem) :
    absorb bytes h =
      ((fullBlocks (h.buffer ++ bytes)).map .procPush ++ [.procFin (paddedChunk (partialBlock (h.buffer ++ bytes)))],
        ⟨partialBlock (h.buffer ++ bytes), h.counter + bytes.length⟩) := by
  rw [absorb, if_neg (by simpa using hb), pushFull_eq le_rfl]

theorem absorb_reset {m : List Byte} (hm : m ≠ []) :
    absorb m HostMem.reset =
      ((fullBlocks m).map .procPush ++ [.procFin (paddedChunk (partialBlock m))], ⟨partialBlock m, m.length⟩) := by
  rw [absorb_of_ne_nil hm, HostMem.reset, List.nil_append, Nat.zero_add]

theorem length_fullBlocks (buffer : List Byte) : (fullBlocks buffer).length = buffer.length / 32 := by
  rw [fullBlocks, List.length_map, List.length_range]

theorem getElem?_fullBlocks {buffer : List Byte} {k : Nat} (hk : k < buffer.length / 32) :
    (fullBlocks buffer)[k]? = some (chunkOf (buffer.drop (32 * k))) := by
  rw [fullBlocks, List.getElem?_map, List.getElem?_range hk, Option.map_some]

/-! ### The hardware under the commands of one absorb (R225, R226, R230) -/

theorem runCommands_append {l : List Instr} {s t : State} (h : runCommands l s = .next t) (l' : List Instr) :
    runCommands (l ++ l') s = runCommands l' t := by
  induction l generalizing s with
  | nil => cases h; rfl
  | cons i l ih =>
    rw [List.cons_append, runCommands]
    rw [runCommands] at h
    cases hi : exec i s with
    | next u => rw [hi] at h; exact ih h
    | fault f => rw [hi] at h; cases h
    | refused r => rw [hi] at h; cases h

/-- The window after `PROC.PUSH` of each chunk in order (R225). -/
def windowAfter (cfg : Params) (kl : List (List Nibble)) (blocks : List Chunk) : List (List Nibble) :=
  blocks.foldl (fun kl c => rotate cfg.depth (processBlock cfg.size cfg.depth kl c) kl) kl

/-- The state after the pushes of one absorb and its `PROC.FIN`, but for `x` and the count of free values. -/
def State.absorbed (s : State) (blocks : List Chunk) (last : Chunk) : State :=
  { s with
    kl := windowAfter s.cfg s.kl blocks
    ldn := processBlock s.cfg.size s.cfg.depth (windowAfter s.cfg s.kl blocks) last
    seq := none
    response := .ok [] }

theorem runCommands_absorbed {s : State} (hv : s.valid = true) (hq : s.seq = none) (blocks : List Chunk)
    (last : Chunk) : ∃ x d, runCommands (blocks.map .procPush ++ [.procFin last]) s
      = .next { s.absorbed blocks last with x := x, draws := d } := by
  induction blocks generalizing s with
  | nil =>
    have hfin : exec (.procFin last) s = _ := exec_procCommand hv hq .fin last
    rw [List.map_nil, List.nil_append, runCommands, hfin]
    exact ⟨_, _, rfl⟩
  | cons c blocks ih =>
    have hpush : exec (.procPush c) s = _ := exec_procCommand hv hq .push c
    rw [List.map_cons, List.cons_append, runCommands, hpush]
    exact ih (s := finishBlock .push _ s) hv rfl

/-- The result register of an earlier absorb plays no part in a later one (L11). -/
theorem absorbed_absorbed (s : State) (blocks blocks' : List Chunk) (last last' : Chunk) (x : List Nibble) (d : Nat) :
    AgreeOffX (State.absorbed { s.absorbed blocks last with x := x, draws := d } blocks' last')
      (s.absorbed (blocks ++ blocks') last') := by
  simp only [AgreeOffX, State.absorbed, windowAfter, List.foldl_append]

/-! ### The digest (R259, R260) -/

/-- Construction with the empty message is the `INIT` alone (R250, R254). -/
theorem construct_nil (mode : Mode) {s : State} (hq : s.seq = none) (hcfg : 1 ≤ s.cfg.depth ∧ s.cfg.size = 256) :
    construct mode [] s = some (HostMem.reset, initialised mode s) := by
  rw [construct, exec_initCommand_ok mode hq hcfg]
  rfl

/-- The digits of the bytes of a chunk are the digits of its nibbles in index order (R200, R259). -/
theorem hexDigest_toList (c : Chunk) : hexDigest c.toList = '0' :: 'x' :: (unpack c).map hexDigit := by
  rw [hexDigest, unpack, List.map_flatMap]
  rfl

/-! ### The statements -/

/-- Settles O53, from the closed form of the loop (`absorb_reset`). -/
theorem absorbCommandTrace : Obligations.AbsorbCommandTrace := by
  refine ⟨absorb_nil, fun m hm => ?_⟩
  have hpushes : ((fullBlocks m).map Instr.procPush).length = m.length / 32 := by
    rw [List.length_map, length_fullBlocks]
  rw [absorb_reset hm]
  refine ⟨?_, fun k hk => ⟨chunkOf (m.drop (32 * k)), ?_, fun j hj => ?_⟩,
    ⟨paddedChunk (partialBlock m), ?_, fun j hj => ?_⟩, rfl⟩
  · rw [List.length_append, hpushes, List.length_singleton]
  · rw [List.getElem?_append_left (hpushes.symm ▸ hk), List.getElem?_map, getElem?_fullBlocks hk, Option.map_some]
  · have hin : 32 * k + j < m.length := by omega
    rw [toList_chunkOf, List.getElem?_map, List.getElem?_range hj, Option.map_some, List.getD_eq_getElem?_getD,
      List.getElem?_drop, List.getElem?_eq_getElem hin, Option.getD_some]
  · rw [List.getElem?_append_right hpushes.le, hpushes, Nat.sub_self, List.getElem?_cons_zero]
  · rw [toList_paddedChunk, List.getElem?_map, List.getElem?_range hj, Option.map_some, partialBlock,
      List.getD_eq_getElem?_getD, List.getElem?_drop, ← List.getD_eq_getElem?_getD]
    rfl

/-- Settles O54: the pushes of both ways are the same (`fullBlocks_append`), and what the `PROC.FIN` between them
writes the last one writes again. -/
theorem splitAbsorbSameResult : Obligations.SplitAbsorbSameResult := by
  intro s h a b hv hq ha hb
  have hab : a ++ b ≠ [] := List.append_ne_nil_of_left_ne_nil ha b
  rw [absorb_of_ne_nil ha, absorb_of_ne_nil hb, absorb_of_ne_nil hab, ← List.append_assoc h.buffer,
    fullBlocks_append (h.buffer ++ a), partialBlock_append (h.buffer ++ a)]
  obtain ⟨x₁, d₁, hfirst⟩ := runCommands_absorbed hv hq (fullBlocks (h.buffer ++ a))
    (paddedChunk (partialBlock (h.buffer ++ a)))
  obtain ⟨x₂, d₂, hsecond⟩ := runCommands_absorbed
    (s := { s.absorbed _ _ with x := x₁, draws := d₁ }) hv rfl (fullBlocks (partialBlock (h.buffer ++ a) ++ b))
    (paddedChunk (partialBlock (partialBlock (h.buffer ++ a) ++ b)))
  obtain ⟨x, d, hwhole⟩ := runCommands_absorbed hv hq _ _
  refine ⟨_, _, (runCommands_append hfirst _).trans hsecond, hwhole, ?_, ?_⟩
  · exact congrArg (fun t : State => { t with x := x₂, draws := d₂ }) (absorbed_absorbed s _ _ _ _ x₁ d₁)
  · rw [List.length_append, Nat.add_assoc]

/-- Settles O55: neither message fills a block, and their padded chunks are equal (`paddedChunk_append_padByte`). -/
theorem paddingCollision : Obligations.PaddingCollision := by
  intro m hm hlen
  have hlen' : (m ++ [0x41#8]).length < 32 := by rwa [List.length_append]
  have hm' : m.length < 32 := by omega
  rw [absorb_reset (List.append_ne_nil_of_left_ne_nil hm _), absorb_reset hm, fullBlocks_of_lt hlen',
    fullBlocks_of_lt hm', partialBlock_of_lt hlen', partialBlock_of_lt hm']
  exact congrArg (fun c => [Instr.procFin c]) (paddedChunk_append_padByte m)

/-- Settles O56: the empty message issues no command, so the digest is that of the clear `LDN` an `INIT` leaves. -/
theorem emptyMessageDigestIsZero : Obligations.EmptyMessageDigestIsZero := by
  intro s mode hq hd hs
  obtain ⟨hvalid, hcfg, hseq, -, -, hldn, -⟩ := freshlyInitialised_initialised mode hq hs
  rw [hashOf, construct_nil mode hq ⟨hd, hs⟩, Option.bind_some, digest_eq hseq hvalid, hldn, hcfg, hs, pack_zeros]

/-- Settles O57: `LDN` is some chunk unpacked, and packing gives back that chunk, whose digits are those of its
nibbles. -/
theorem hexDigestPrintsResultRegister : Obligations.HexDigestPrintsResultRegister := by
  intro s hs hv hq
  have hn := hs.n_eq_of_valid hv
  obtain ⟨⟨-, -, hldn, -⟩, -, hcfg, -⟩ := hs
  obtain ⟨c, -, hc⟩ := unpack_bijOn.surjOn (hldn.trans hn : s.ldn ∈ nibbleArrays 64)
  refine ⟨_, digest_eq hq hv, ?_⟩
  rw [(hcfg hv).2, ← hc, pack_unpack, hexDigest_toList]
  exact ⟨rfl, by simp⟩

/-- Settles O41: each of the five commands first looks whether the sequencer is idle. -/
theorem commandDuringBlockRunRefused : Obligations.CommandDuringBlockRunRefused := by
  intro s r i hr hi
  cases i with
  | initStd => exact whenIdle_running hr _
  | initRnd => exact whenIdle_running hr _
  | procPush c => exact whenIdle_running hr _
  | procFin c => exact whenIdle_running hr _
  | rdDig => exact whenIdle_running hr _
  | _ => cases hi

end Sys2Proof.Machine

/-! PROOFS of the family `60_exceptions.md`: what each exception records, when none is raised, and the loss of power
(R281 to R296). -/

namespace Sys2Proof.Machine

/-! ### The checks of an `INIT`, one lemma per check (R281, R282, R287) -/

theorem configCheck_depth {cfg : Params} (hd : cfg.depth < 1) : configCheck cfg = some (.configError .depth) :=
  if_pos hd

theorem configCheck_size {cfg : Params} (hd : 1 ≤ cfg.depth) (hs : ¬ legalSize cfg.size) :
    configCheck cfg = some (.configError .size) := by
  have hbad : cfg.size = 0 ∨ cfg.size % 8 ≠ 0 := by omega
  rw [configCheck, if_neg (by omega), if_pos hbad]

theorem configCheck_unsupported {cfg : Params} (hd : 1 ≤ cfg.depth) (hs : legalSize cfg.size)
    (h256 : cfg.size ≠ 256) : configCheck cfg = some (.unsupportedSize cfg.size) := by
  have hgood : ¬ (cfg.size = 0 ∨ cfg.size % 8 ≠ 0) := by omega
  rw [configCheck, if_neg (by omega), if_neg hgood, if_pos h256]

/-- The exception of the check that fails is the one the `INIT` raises. -/
theorem exec_initCommand_raises (mode : Mode) {s : State} {e : Exception} (hq : s.seq = none)
    (he : configCheck s.cfg = some e) : exec (initCommand mode) s = .next { s with response := .fault e } := by
  rw [exec_initCommand mode hq]
  simp only [initialise, he, raise]

theorem exists_mode_of_mem_inits {i : Instr} (hi : i ∈ [Instr.initStd, Instr.initRnd]) :
    ∃ mode, i = initCommand mode := by
  simp only [List.mem_cons, List.not_mem_nil, or_false] at hi
  rcases hi with rfl | rfl
  · exact ⟨.standard, rfl⟩
  · exact ⟨.random, rfl⟩

/-! ### An instance that no command can initialise (R289) -/

/-- With `VALID` 0 and a check of the configuration that fails, a command can only raise an exception. -/
theorem exec_raises_of_badConfiguration {i : Instr} (hi : i.isKeyOp = false) {s t : State} (hv : s.valid = false)
    (hcfg : ¬ (1 ≤ s.cfg.depth ∧ s.cfg.size = 256)) (h : exec i s = .next t) :
    ∃ e, t = { s with response := .fault e } := by
  rcases exec_next_cases h with ⟨hkey, -⟩ | ⟨-, -, hfault | ⟨-, -, hc, -⟩ | ⟨hvalid, -⟩ | ⟨hvalid, -⟩⟩
  · rw [hi] at hkey; cases hkey
  · exact hfault
  · exact absurd ((configCheck_none s.cfg).mp hc) hcfg
  · rw [hv] at hvalid; cases hvalid
  · rw [hv] at hvalid; cases hvalid

/-! ### The loss of power (R296) -/

/-- With the reset configuration and no input left, a loss of power gives the reset state but for the unspecified
contents (R36). -/
theorem losePower_eq_reset {s : State} (hcfg : s.cfg = State.reset.cfg) (hin : s.inputs.tail = []) :
    { losePower s with kl := State.reset.kl, ldn := State.reset.ldn, x := State.reset.x, draws := State.reset.draws }
      = State.reset := by
  simp only [losePower, hcfg, hin]
  rfl

/-! ### The statements -/

/-- Settles O37: each of the three commands looks at `VALID` before it does anything. -/
theorem notInitialisedWhileInvalid : Obligations.NotInitialisedWhileInvalid := by
  intro s c hq hv i hi
  simp only [List.mem_cons, List.not_mem_nil, or_false] at hi
  rcases hi with rfl | rfl | rfl
  · exact whenIdle_whenValid_fresh hq hv _
  · exact whenIdle_whenValid_fresh hq hv _
  · exact whenIdle_whenValid_fresh hq hv _

/-- Settles O38: each clause is the first check that fails. -/
theorem initChecksInOrder : Obligations.InitChecksInOrder := by
  intro s hq i hi
  obtain ⟨mode, rfl⟩ := exists_mode_of_mem_inits hi
  exact ⟨fun hd => exec_initCommand_raises mode hq (configCheck_depth hd),
    fun hd hs => exec_initCommand_raises mode hq (configCheck_size hd hs),
    fun hd hs h256 => exec_initCommand_raises mode hq (configCheck_unsupported hd hs h256)⟩

/-- Settles O39: of the ways a command can answer, the others hand the host a result. -/
theorem faultingCommandChangesNothing : Obligations.FaultingCommandChangesNothing := by
  intro s t i e hi h hresp
  rcases exec_next_cases h with ⟨hkey, -⟩ |
    ⟨-, -, ⟨e', rfl⟩ | ⟨mode, -, -, rfl⟩ | ⟨-, chunk, dest, -, rfl⟩ | ⟨-, -, rfl⟩⟩
  · rw [hi] at hkey; cases hkey
  · cases hresp; rfl
  · cases hresp
  · rw [finishBlock_response] at hresp; cases hresp
  · cases hresp

/-- Settles O40: an initialised instance that meets the invariant has a supported configuration, so an `INIT` passes
its checks, and the other commands find `VALID` 1. -/
theorem everyCommandSucceedsOnceInitialised : Obligations.EveryCommandSucceedsOnceInitialised := by
  intro s i hs hv hq hi
  obtain ⟨-, -, hcfg, -⟩ := hs
  cases i with
  | initStd => exact ⟨_, _, exec_initCommand_ok .standard hq (hcfg hv), rfl⟩
  | initRnd => exact ⟨_, _, exec_initCommand_ok .random hq (hcfg hv), rfl⟩
  | procPush c => exact ⟨_, _, exec_procCommand hv hq .push c, rfl⟩
  | procFin c => exact ⟨_, _, exec_procCommand hv hq .fin c, rfl⟩
  | rdDig => exact ⟨_, _, exec_rdDig hq hv, rfl⟩
  | _ => cases hi

/-- Settles O46, by the ways a step from idle can go: a command raises an exception
(`exec_raises_of_badConfiguration`), and a loss of power or a wait initialises nothing. -/
theorem badConfigurationNeverInitialises : Obligations.BadConfigurationNeverInitialises := by
  intro s t hq hv hcfg h
  rcases step_cases s with ⟨rest, hin, hstep⟩ | ⟨-, hin, hstep⟩ |
    ⟨bytes, rest, -, -, ⟨why, -, hstep⟩ | ⟨i, hd, hstep⟩⟩ | ⟨r, hr, -⟩
  · cases hstep.symm.trans h
    exact ⟨rfl, rfl, rfl, .inr (.inl (by rw [losePower_inputs, hin, List.tail_cons]))⟩
  · cases hstep.symm.trans h
    exact ⟨hq, hv, rfl, .inl hin⟩
  · cases hstep.symm.trans h
  · obtain ⟨e, rfl⟩ := exec_raises_of_badConfiguration (s := { s with inputs := rest })
      (isKeyOp_of_decode_command hd) hv hcfg (hstep.symm.trans h)
    exact ⟨hq, hv, rfl, .inr (.inr ⟨e, rfl⟩)⟩
  · rw [hq] at hr; cases hr

/-- Settles O47: the state after a loss of power is idle with `VALID` 0, so the three commands and an `INIT` do there
what they do from any such state. -/
theorem powerLossReturnsToPowerOn : Obligations.PowerLossReturnsToPowerOn := by
  refine ⟨fun s => step_waiting, fun s rest hin => ?_⟩
  have htail : (losePower s).inputs = rest := by rw [losePower_inputs, hin, List.tail_cons]
  refine ⟨losePower s, step_powerLoss hin, rfl, rfl, rfl, rfl, htail, losePower_shaped s,
    fun hcfg hrest => losePower_eq_reset hcfg (htail.trans hrest),
    fun c => notInitialisedWhileInvalid (losePower s) c rfl rfl, fun hd hs i hi => ?_⟩
  obtain ⟨mode, rfl⟩ := exists_mode_of_mem_inits hi
  exact ⟨_, exec_initCommand_ok mode (s := losePower s) rfl ⟨hd, hs⟩, rfl⟩

end Sys2Proof.Machine

/-! PROOFS of the family `70_reset_and_hazards.md`: the commands at power-on (R311). -/

namespace Sys2Proof.Machine

/-- The configuration at power-on, `GateNetwork(SIZE=256, DEPTH=128)` (R1), is one the commands exist for. -/
theorem reset_configSupported : 1 ≤ State.reset.cfg.depth ∧ State.reset.cfg.size = 256 := by
  decide

/-- Settles O45: the reset state is idle with `VALID` 0, so the three commands that need an instance raise
`NotInitialised` (`notInitialisedWhileInvalid`), and its configuration passes the checks of an `INIT`
(`reset_configSupported`). -/
theorem powerOnAwaitsInit : Obligations.PowerOnAwaitsInit := by
  have hidle : State.reset.seq = none := rfl
  have hfresh : State.reset.valid = false := rfl
  refine ⟨hfresh, fun c => notInitialisedWhileInvalid State.reset c hidle hfresh, fun i hi => ?_⟩
  obtain ⟨mode, rfl⟩ := exists_mode_of_mem_inits hi
  exact ⟨initialised mode State.reset, exec_initCommand_ok mode hidle reset_configSupported, rfl⟩

end Sys2Proof.Machine

/-! PROOFS of the family `other`: bare words of the table (R81, R89; log entry 13). -/

namespace Sys2Proof

/-- A bare word of the table stands for the instruction whose encoding gives its place and its bytes. -/
theorem decodeTableWord_of_encode {nbits w : Nat} {i : Instr} (h : tableWord nbits w = encode i) :
    decodeTableWord nbits w = some i := by
  rw [decodeTableWord, h, decode_encode]
  rfl

/-- Codes 5, 6 and 7 of a bare command word name no command (R89). -/
theorem decodeTableWord_spare {nbits w : Nat} {b : Byte} {arg : List Byte}
    (h : tableWord nbits w = (.command, b :: arg)) (hlo : 5 ≤ b.toNat) (hhi : b.toNat < 8) :
    decodeTableWord nbits w = none := by
  rw [decodeTableWord, h, decode_command_spare arg hlo hhi]
  rfl

/-- Settles O2: each word that stands for an instruction is the encoding of that instruction
(`decodeTableWord_of_encode`), and 101 is a spare code (`decodeTableWord_spare`). -/
theorem wordsOfTheSpecDecode : Obligations.WordsOfTheSpecDecode :=
  ⟨decodeTableWord_of_encode (by decide), decodeTableWord_of_encode (by decide),
    decodeTableWord_of_encode (by decide), decodeTableWord_of_encode (by decide),
    decodeTableWord_of_encode (by decide),
    decodeTableWord_spare (b := 5#8) (arg := []) (by decide) (by decide) (by decide)⟩

end Sys2Proof
